-- ==== Sys2Proof/Word.lean ====
section
/-! DEFINITION. The two widths of the machine. Bits are numbered from 0 at the least significant bit
(00_scope.md R6). The unsigned reading u(v) of R7 is `BitVec.toNat`, the signed reading s(v) is `BitVec.toInt`
and bit 15 of a word is `BitVec.msb`. -/

namespace Sys2Proof

/-- A byte: 8 bits, the addressable unit (00_scope.md R6, 20_memory.md R50). -/
abbrev Byte := BitVec 8

/-- A word: 16 bits, the width of a register, an operand, an address value and a memory word
(00_scope.md R5 XLEN and ADDR_BITS, R7). -/
abbrev Word := BitVec 16

end Sys2Proof
end

