-- ==== Sys2Proof/Config.lean ====
section
/-! DEFINITION. The parameters of 00_scope.md R5. The sizes are literals of the spec, taken as normative
(92_eei_decisions.md D4, log 5); the switch ADDR_WRITES_O is open and has no value here (D9, log 2). The other
model argument, IMAGE (D23), is the argument of `Sys2Proof.Machine.startup`. -/

namespace Sys2Proof.Config

/-- MEM_SIZE: bytes of memory; valid byte addresses are 0 to 32767 (00_scope.md R5, 20_memory.md R50).
DEDUCED (log 5), unsafe if the spec's source mis-copied it. -/
def memSize : Nat := 32768

/-- WORD_LIMIT: a word access at this address or above faults; MEM_SIZE - 1 (00_scope.md R5, 20_memory.md R53). -/
def wordLimit : Nat := 32767

/-- RESET_PC: the entry point (00_scope.md R5, 70_reset_and_hazards.md R243). -/
def resetPc : Word := 0x0000#16

/-- ADDR_WRITES_O: whether ADDR assigns the Overflow flag (43_arithmetic.md R165, 92_eei_decisions.md D9, C5, U4).
The spec leaves it OPEN (it names `false` as its default) and asks that a claim hold for both settings, so it has
no body: whatever is proved holds whichever it is. DESIGN CHOICE (log 2), safe. -/
opaque addrWritesO : Bool

end Sys2Proof.Config
end

