-- ==== Sys2Proof/Syntax.lean ====
section
/-! DEFINITION. The registers a selector can name and the 19 instructions, one constructor per row of
spec/opcode_table.json (30_encoding.md R88). An instruction holds exactly the fields its row uses
(10_state.md R24): an unused selector field and the reserved bits have no effect (R84, R90) and are no part of it. -/

namespace Sys2Proof

/-- The four registers, in the order of their selectors 0 to 3 (10_state.md R22): R1 is selector 1 but A1 is
selector 3. -/
inductive Reg where
  | r2   -- data register, selector 0
  | r1   -- data register, selector 1
  | a2   -- address register, selector 2
  | a1   -- address register, selector 3
deriving DecidableEq, Repr

/-- The two register classes (10_state.md R22, 00_scope.md R12). -/
inductive RegClass where
  | data
  | address
deriving DecidableEq, Repr

/-- The 19 instructions. `reg1`, `reg2` are the selector fields, `imm` the 16-bit operand (30_encoding.md R83, R85). -/
inductive Instr where
  | halt                                -- 0x31 HALT   45_halt.md R200
  | load   (reg1 : Reg) (imm : Word)    -- 0x60 LOAD   41_load_store.md R140
  | loadi  (reg1 reg2 : Reg)            -- 0x61 LOADI  R141
  | store  (reg1 : Reg) (imm : Word)    -- 0x62 STORE  R142
  | storei (reg1 reg2 : Reg)            -- 0x63 STOREI R143
  | jmp    (imm : Word)                 -- 0x64 JMP    42_jumps.md R151
  | jmpz   (imm : Word)                 -- 0x65 JMPZ   R152
  | jmpn   (imm : Word)                 -- 0x66 JMPN   R153
  | jmpo   (imm : Word)                 -- 0x67 JMPO   R154
  | add    (reg1 : Reg) (imm : Word)    -- 0x68 ADD    43_arithmetic.md R164
  | addr   (reg1 reg2 : Reg)            -- 0x69 ADDR   R165
  | sub    (reg1 : Reg) (imm : Word)    -- 0x6A SUB    R166
  | subr   (reg1 reg2 : Reg)            -- 0x6B SUBR   R167
  | out    (imm : Word)                 -- 0x6C OUT    44_output.md R184
  | outc   (imm : Word)                 -- 0x6D OUTC   R185
  | outr   (reg1 : Reg)                 -- 0x6E OUTR   R186
  | outrc  (reg1 : Reg)                 -- 0x6F OUTRC  R187
  | outi   (reg1 : Reg)                 -- 0x70 OUTI   R188
  | outic  (reg1 : Reg)                 -- 0x71 OUTIC  R189
deriving DecidableEq, Repr

end Sys2Proof
end

