-- ==== Sys2Proof/Machine/State.lean ====
section
/-! DEFINITION. The complete state of the machine (10_state.md R20), the faults it records (R31, 60_exceptions.md
R213), the outcomes of a step, and the state after reset (R35). -/

namespace Sys2Proof.Machine

/-! ### The output trace -/

/-- One output transaction (44_output.md R180). -/
inductive Output where
  /-- `NUM v`: a 16-bit value shown as a signed decimal number. -/
  | num (v : Word)
  /-- `CHAR b`: one byte shown as a character. -/
  | char (b : Byte)
deriving DecidableEq, Repr

/-! ### Faults as the machine records them -/

/-- Which access a BoundsFault met (60_exceptions.md R213). -/
inductive Access where
  | fetchOpcode
  | fetchSelector
  | fetchOperand
  | dataRead
  | dataWrite
deriving DecidableEq, Repr

/-- The width of an access, 1 or 2 bytes (20_memory.md R52 to R55, 60_exceptions.md R213). -/
inductive Width where
  | byte
  | word
deriving DecidableEq, Repr

/-- Which selector field an OperandClassFault names (60_exceptions.md R213). -/
inductive Field where
  | reg1
  | reg2
deriving DecidableEq, Repr

/-- The four kinds of the source's taxonomy (60_exceptions.md R215). -/
inductive FaultKind where
  /-- LoadFault: of the loader, never of the core (R214). -/
  | load
  | decode
  | bounds
  | operandClass
deriving DecidableEq, Repr

/-- What a fault of the core reports (60_exceptions.md R210 to R213). -/
inductive FaultInfo where
  /-- DecodeFault: the offending opcode byte (R210). -/
  | decode (opc : Byte)
  /-- BoundsFault: the address given to the failing access, which access and its width (R211). -/
  | bounds (addr : Word) (access : Access) (width : Width)
  /-- OperandClassFault: the opcode, the field, the selector value, the class that was required (R212). -/
  | operandClass (opc : Byte) (field : Field) (sel : BitVec 2) (required : RegClass)
deriving DecidableEq, Repr

/-- The fault record (10_state.md R31): the address of the faulting instruction and what the fault reports. -/
structure FaultRecord where
  faultPc : Word
  info : FaultInfo
deriving DecidableEq, Repr

/-- The core's status (10_state.md R30). The fault record is meaningful only in Faulted (R31), so it is held there. -/
inductive Status where
  | running
  | halted
  | faulted (record : FaultRecord)
deriving DecidableEq, Repr

/-! ### The state -/

/-- Memory: the listed bytes, in the canonical form `Memory.wf` of Machine/Memory.lean; an unlisted address reads as
`Memory.unlisted`. DESIGN CHOICE (log 3), safe. -/
abbrev Memory := List Host.Cell

/-- Everything 10_state.md R20 lists. -/
structure State where
  /-- R1, data register (R21). -/
  r1 : Word
  /-- R2, data register (R21). -/
  r2 : Word
  /-- A1, address register (R23). -/
  a1 : Word
  /-- A2, address register (R23). -/
  a2 : Word
  /-- The program counter (R25). -/
  pc : Word
  /-- The Zero flag (R27). -/
  z : Bool
  /-- The Negative flag (R27). -/
  n : Bool
  /-- The Overflow flag (R27). -/
  o : Bool
  /-- The memory (20_memory.md R50). -/
  mem : Memory
  /-- Status and, in Faulted, the fault record (R30, R31). -/
  status : Status
  /-- The output trace, oldest first (R32). -/
  out : List Output
deriving DecidableEq, Repr

/-- The machine right after reset (10_state.md R35): every register, flag and pc zero, memory zero everywhere (no
address listed), status Running, no output. The last two are a DESIGN CHOICE of the spec (D18, log 12), unsafe only for a
claim about them at the start. -/
def State.reset : State where
  r1 := 0x0000#16
  r2 := 0x0000#16
  a1 := 0x0000#16
  a2 := 0x0000#16
  pc := Config.resetPc
  z := false
  n := false
  o := false
  mem := []
  status := .running
  out := []

/-! ### How a step can stop -/

/-- Why there is no step. The three faults of the spec are not here: their entry is a next state (60_exceptions.md
R216, log 1). -/
inductive Fault where
  /-- Raised by `step` in status Halted, where the core takes no step for ever (45_halt.md R201). Safe: the spec has
  no next state there. -/
  | halted
  /-- Raised by `step` in status Faulted, where the core takes no step for ever (60_exceptions.md R218); it carries
  the fault record. Safe: the spec has no next state there. -/
  | faulted (record : FaultRecord)
deriving DecidableEq, Repr

/-- Why an instruction has no meaning here. -/
inductive Refusal where
  /-- Raised by an arm of `exec` whose instruction has no meaning yet; no arm is so. Safe: the model stops. -/
  | notModelled (mnemonic : String)
deriving DecidableEq, Repr

end Sys2Proof.Machine
end

