-- ==== Sys2Proof/Machine/Flags.lean ====
section
/-! DEFINITION. The flag computations: SetZN (40_step_cycle.md R119) and the two overflow rules (43_arithmetic.md
R161, R162). -/

namespace Sys2Proof.Machine

/-- SetZN(v): Z <- (v == 0), N <- v[15]; O not touched (40_step_cycle.md R119). -/
def State.setZN (s : State) (v : Word) : State := { s with z := v == 0#16, n := v.msb }

/-- O <- b, set or cleared (43_arithmetic.md R163): DESIGN CHOICE of the spec (D8, log 8), unsafe if the original's flag
is sticky. -/
def State.setO (s : State) (b : Bool) : State := { s with o := b }

/-- ovf_add(a, b, r): the operands share a sign bit and the result's differs (43_arithmetic.md R161). Zero counts as positive:
DESIGN CHOICE of the spec (D10, log 8), unsafe for the one pair of operands where another reading differs. -/
def ovfAdd (a b r : Word) : Bool := (a.msb == b.msb) && (r.msb != a.msb)

/-- ovf_sub(a, b, r): the operands' sign bits differ and the result's differs from the minuend's (43_arithmetic.md
R162, C4). DESIGN CHOICE of the spec (D10, log 8), unsafe as above. -/
def ovfSub (a b r : Word) : Bool := (a.msb != b.msb) && (r.msb != a.msb)

end Sys2Proof.Machine
end

