-- ==== Sys2Proof/WellFormed.lean ====
section
/-! DEFINITION. When an instruction meets its register-class requirements (40_step_cycle.md R116, 10_state.md R24).
Every term of `Instr` can be encoded; one that is not well formed is a legal encoding whose execution raises
OperandClassFault (60_exceptions.md R212: a programmer's or assembler's error). -/

namespace Sys2Proof

/-- The class of a register: selectors 0 and 1 are data registers, 2 and 3 address registers (10_state.md R22). -/
def Reg.cls : Reg → RegClass
  | .r2 => .data
  | .r1 => .data
  | .a2 => .address
  | .a1 => .address

/-- isData(s): s <= 1 (10_state.md R22). -/
def Reg.isData (r : Reg) : Bool := r.cls == .data

/-- isAddr(s): s >= 2 (10_state.md R22). -/
def Reg.isAddr (r : Reg) : Bool := r.cls == .address

/-- The complete list of class checks of 40_step_cycle.md R116. -/
def Instr.wellFormed : Instr → Bool
  | .halt => true
  | .load _ _ => true
  | .loadi _ reg2 => reg2.isAddr
  | .store _ _ => true
  | .storei _ reg2 => reg2.isAddr
  | .jmp _ => true
  | .jmpz _ => true
  | .jmpn _ => true
  | .jmpo _ => true
  | .add reg1 _ => reg1.isData
  | .addr reg1 reg2 => reg1.isData && reg2.isData
  | .sub reg1 _ => reg1.isData
  | .subr reg1 reg2 => reg1.isData && reg2.isData
  | .out _ => true
  | .outc _ => true
  | .outr reg1 => reg1.isData
  | .outrc reg1 => reg1.isData
  | .outi reg1 => reg1.isAddr
  | .outic reg1 => reg1.isAddr

end Sys2Proof
end

