-- ==== Sys2Proof/Decode.lean ====
section
/-! DEFINITION. The decoder, total on any bytes and rejecting by name, and after it the encoder, both written from
30_encoding.md R80 to R92, with the bit-field and byte-order helpers they share with the memory controller. -/

namespace Sys2Proof

/-! ### Bit fields and byte order -/

/-- A little-endian pair of bytes as a word, `lo + 256 * hi`: `lo` in bits 7..0, `hi` in bits 15..8 (20_memory.md R53,
R56, 30_encoding.md R85). -/
def joinBytes (lo hi : Byte) : Word := BitVec.ofNat 16 (lo.toNat + 256 * hi.toNat)

/-- v[7:0], the byte stored at the lower address (20_memory.md R55). -/
def lowByte (v : Word) : Byte := v.extractLsb' 0 8

/-- v[15:8], the byte stored at the higher address (20_memory.md R55). -/
def highByte (v : Word) : Byte := v.extractLsb' 8 8

/-- reg1 = selb[1:0] (30_encoding.md R83). -/
def reg1Field (selb : Byte) : BitVec 2 := selb.extractLsb' 0 2

/-- reg2 = selb[7:6] (30_encoding.md R83). -/
def reg2Field (selb : Byte) : BitVec 2 := selb.extractLsb' 6 2

/-- The selector map {0,1,2,3} to {R2, R1, A2, A1} (10_state.md R22). -/
def Reg.ofSelector (s : BitVec 2) : Reg :=
  if s = 0#2 then .r2 else if s = 1#2 then .r1 else if s = 2#2 then .a2 else .a1

/-- The selector of a register, the same map read the other way (10_state.md R22). -/
def Reg.selector : Reg → BitVec 2
  | .r2 => 0#2
  | .r1 => 1#2
  | .a2 => 2#2
  | .a1 => 3#2

/-! ### Decoding -/

/-- WIDE: the ten opcodes with a 16-bit operand (30_encoding.md R86). -/
def isWide (opc : Byte) : Bool :=
  [0x60#8, 0x62#8, 0x64#8, 0x65#8, 0x66#8, 0x67#8, 0x68#8, 0x6A#8, 0x6C#8, 0x6D#8].contains opc

/-- VALID: 0x31 or 0x60 to 0x71 (30_encoding.md R89, 40_step_cycle.md R114, 90_conflicts.md C7). -/
def isValid (opc : Byte) : Bool :=
  opc == 0x31#8 || (0x60 ≤ opc.toNat && opc.toNat ≤ 0x71)

/-- Decoding of the fetched fields: the opcode byte alone selects the instruction (30_encoding.md R82, R88); both
selector fields are extracted for every instruction, used or not (R83); bits 5..2 of the selector byte are not
looked at (R84) and an unused field is ignored (R90): DESIGN CHOICE of the spec (log 9), unsafe for a program that sets
them. `none` for an opcode byte outside the valid set (R89). A narrow instruction has no operand and
its row does not use `imm`. -/
def decodeFields (opc selb : Byte) (imm : Word) : Option Instr :=
  let reg1 := Reg.ofSelector (reg1Field selb)
  let reg2 := Reg.ofSelector (reg2Field selb)
  if opc = 0x31#8 then some .halt
  else if opc = 0x60#8 then some (.load reg1 imm)
  else if opc = 0x61#8 then some (.loadi reg1 reg2)
  else if opc = 0x62#8 then some (.store reg1 imm)
  else if opc = 0x63#8 then some (.storei reg1 reg2)
  else if opc = 0x64#8 then some (.jmp imm)
  else if opc = 0x65#8 then some (.jmpz imm)
  else if opc = 0x66#8 then some (.jmpn imm)
  else if opc = 0x67#8 then some (.jmpo imm)
  else if opc = 0x68#8 then some (.add reg1 imm)
  else if opc = 0x69#8 then some (.addr reg1 reg2)
  else if opc = 0x6A#8 then some (.sub reg1 imm)
  else if opc = 0x6B#8 then some (.subr reg1 reg2)
  else if opc = 0x6C#8 then some (.out imm)
  else if opc = 0x6D#8 then some (.outc imm)
  else if opc = 0x6E#8 then some (.outr reg1)
  else if opc = 0x6F#8 then some (.outrc reg1)
  else if opc = 0x70#8 then some (.outi reg1)
  else if opc = 0x71#8 then some (.outic reg1)
  else none

/-- Why a list of bytes is no instruction. -/
inductive DecodeError where
  /-- The opcode byte is not in the valid set (30_encoding.md R89): the machine takes a DecodeFault. -/
  | invalidOpcode (opc : Byte)
  /-- The list ends before the instruction does: the machine's fetch has met the end of memory instead (R93). -/
  | truncated
deriving DecidableEq, Repr

/-- Decoding of a list of bytes, the first at the lowest address: the instruction and the bytes after it. The length
comes from the opcode byte alone, 4 for a wide opcode and 2 for every other byte, valid or not (30_encoding.md R87);
the opcode is validated after the bytes are there (40_step_cycle.md R111). -/
def decodeBytes : List Byte → Except DecodeError (Instr × List Byte)
  | opc :: selb :: rest =>
    if isWide opc then
      match rest with
      | lo :: hi :: rest' =>
        match decodeFields opc selb (joinBytes lo hi) with
        | some i => .ok (i, rest')
        | none => .error (.invalidOpcode opc)
      | _ => .error .truncated
    else
      match decodeFields opc selb 0#16 with
      | some i => .ok (i, rest)
      | none => .error (.invalidOpcode opc)
  | _ => .error .truncated

/-! ### Encoding -/

/-- The opcode byte (30_encoding.md R88). -/
def Instr.opcode : Instr → Byte
  | .halt => 0x31#8
  | .load _ _ => 0x60#8
  | .loadi _ _ => 0x61#8
  | .store _ _ => 0x62#8
  | .storei _ _ => 0x63#8
  | .jmp _ => 0x64#8
  | .jmpz _ => 0x65#8
  | .jmpn _ => 0x66#8
  | .jmpo _ => 0x67#8
  | .add _ _ => 0x68#8
  | .addr _ _ => 0x69#8
  | .sub _ _ => 0x6A#8
  | .subr _ _ => 0x6B#8
  | .out _ => 0x6C#8
  | .outc _ => 0x6D#8
  | .outr _ => 0x6E#8
  | .outrc _ => 0x6F#8
  | .outi _ => 0x70#8
  | .outic _ => 0x71#8

/-- The selector byte reg1 + 64 * reg2, reserved bits 0 (30_encoding.md R83, R84, R94). -/
def selectorByte (reg1 reg2 : BitVec 2) : Byte := BitVec.ofNat 8 (reg1.toNat + 64 * reg2.toNat)

/-- The bytes of a narrow instruction (30_encoding.md R81, format N). -/
def encodeNarrow (opc : Byte) (reg1 reg2 : BitVec 2) : List Byte := [opc, selectorByte reg1 reg2]

/-- The bytes of a wide instruction (30_encoding.md R81, format W). -/
def encodeWide (opc : Byte) (reg1 reg2 : BitVec 2) (imm : Word) : List Byte :=
  [opc, selectorByte reg1 reg2, lowByte imm, highByte imm]

/-- The bytes of an instruction, the first at the lowest address; a field the row does not use is 0 (30_encoding.md
R94). -/
def encode (i : Instr) : List Byte :=
  match i with
  | .halt => encodeNarrow i.opcode 0 0
  | .load reg1 imm => encodeWide i.opcode reg1.selector 0 imm
  | .loadi reg1 reg2 => encodeNarrow i.opcode reg1.selector reg2.selector
  | .store reg1 imm => encodeWide i.opcode reg1.selector 0 imm
  | .storei reg1 reg2 => encodeNarrow i.opcode reg1.selector reg2.selector
  | .jmp imm => encodeWide i.opcode 0 0 imm
  | .jmpz imm => encodeWide i.opcode 0 0 imm
  | .jmpn imm => encodeWide i.opcode 0 0 imm
  | .jmpo imm => encodeWide i.opcode 0 0 imm
  | .add reg1 imm => encodeWide i.opcode reg1.selector 0 imm
  | .addr reg1 reg2 => encodeNarrow i.opcode reg1.selector reg2.selector
  | .sub reg1 imm => encodeWide i.opcode reg1.selector 0 imm
  | .subr reg1 reg2 => encodeNarrow i.opcode reg1.selector reg2.selector
  | .out imm => encodeWide i.opcode 0 0 imm
  | .outc imm => encodeWide i.opcode 0 0 imm
  | .outr reg1 => encodeNarrow i.opcode reg1.selector 0
  | .outrc reg1 => encodeNarrow i.opcode reg1.selector 0
  | .outi reg1 => encodeNarrow i.opcode reg1.selector 0
  | .outic reg1 => encodeNarrow i.opcode reg1.selector 0

/-! ### One word of spec/opcode_table.json -/

/-- The four bytes of the table's view of an instruction as one little-endian number (30_encoding.md R91), every bit
from `nbits` up taken as 0. -/
def tableBytes (nbits w : Nat) : List Byte :=
  let v := BitVec.ofNat 32 (w % 2 ^ nbits)
  [v.extractLsb' 0 8, v.extractLsb' 8 8, v.extractLsb' 16 8, v.extractLsb' 24 8]

/-- What the decoder reads from an instruction whose bits are `w`, numbered as spec/opcode_table.json numbers them. -/
def decodeTableWord (nbits w : Nat) : Option Instr :=
  match decodeBytes (tableBytes nbits w) with
  | .ok (i, _) => some i
  | .error _ => none

end Sys2Proof
end

