-- ==== Sys2Proof/Machine/Memory.lean ====
section
/-! DEFINITION. The bounded memory controller (20_memory.md): the array as a canonical list of cells, and the four
access primitives with their range checks. A primitive that fails answers `.error` with the BoundsFault and no
memory, so nothing is written then (R55). -/

namespace Sys2Proof.Machine

/-- What an address that no cell lists reads as: memory is zero-filled (10_state.md R35, 70_reset_and_hazards.md
R241). -/
def Memory.unlisted : Byte := 0x00#8

/-- The canonical form: addresses strictly rising, every one inside the 32768 bytes that exist (20_memory.md R50),
no cell equal to what an unlisted address reads as: DESIGN CHOICE (log 3), safe. -/
abbrev Memory.wf (m : Memory) : Prop :=
  m.Pairwise (fun c d => c.1 < d.1) ∧ ∀ c ∈ m, c.1 < Config.memSize ∧ c.2 ≠ Memory.unlisted

/-- mem[a], unchecked. -/
def Memory.get : Memory → Nat → Byte
  | [], _ => Memory.unlisted
  | (b, v) :: m, a => if b = a then v else Memory.get m a

/-- List the cell (a, v) at its place. -/
def Memory.insert : Memory → Nat → Byte → Memory
  | [], a, v => [(a, v)]
  | (b, w) :: m, a, v =>
    if a < b then (a, v) :: (b, w) :: m
    else if a = b then (a, v) :: m
    else (b, w) :: Memory.insert m a v

/-- mem[a] <- v, unchecked, keeping the canonical form. -/
def Memory.set (m : Memory) (a : Nat) (v : Byte) : Memory :=
  if v = Memory.unlisted then m.filter (fun c => c.1 ≠ a) else Memory.insert m a v

/-- MemRead(addr, 1) (20_memory.md R52). -/
def readByte (access : Access) (m : Memory) (addr : Word) : Except FaultInfo Byte :=
  if Config.memSize ≤ addr.toNat then .error (.bounds addr access .byte)
  else .ok (m.get addr.toNat)

/-- MemRead(addr, 2), little-endian (20_memory.md R53, R56). No alignment is asked (R57):
DESIGN CHOICE of the spec (D17, log 14), safe. -/
def readWord (access : Access) (m : Memory) (addr : Word) : Except FaultInfo Word :=
  if Config.wordLimit ≤ addr.toNat then .error (.bounds addr access .word)
  else .ok (joinBytes (m.get addr.toNat) (m.get (addr.toNat + 1)))

/-- MemWrite(addr, 1, v): the low 8 bits (20_memory.md R54). No instruction performs one. -/
def writeByte (m : Memory) (addr : Word) (v : Word) : Except FaultInfo Memory :=
  if Config.memSize ≤ addr.toNat then .error (.bounds addr .dataWrite .byte)
  else .ok (m.set addr.toNat (lowByte v))

/-- MemWrite(addr, 2, v): low byte at addr, high byte at addr + 1, checked whole before either byte is written
(20_memory.md R55): DESIGN CHOICE of the spec (D6, log 7), unsafe for a claim about memory after a fault. -/
def writeWord (m : Memory) (addr : Word) (v : Word) : Except FaultInfo Memory :=
  if Config.wordLimit ≤ addr.toNat then .error (.bounds addr .dataWrite .word)
  else .ok ((m.set addr.toNat (lowByte v)).set (addr.toNat + 1) (highByte v))

/-- Bytes copied verbatim to consecutive addresses from `a` up, as the loader does (70_reset_and_hazards.md R242);
a byte that would fall outside the array is dropped (`startup` refuses such a program before). -/
def Memory.place : Memory → Nat → List Byte → Memory
  | m, _, [] => m
  | m, a, b :: bs => Memory.place (if a < Config.memSize then m.set a b else m) (a + 1) bs

end Sys2Proof.Machine
end

