-- ==== Sys2Proof/Machine/Ops.lean ====
section
/-! DEFINITION. The named operations over the registers, pc, output and status, and taking a fault. -/

namespace Sys2Proof.Machine

/-! ### Registers, pc, output -/

/-- x[s]: read the register a selector chooses (10_state.md R22). -/
def State.reg (s : State) : Reg → Word
  | .r2 => s.r2
  | .r1 => s.r1
  | .a2 => s.a2
  | .a1 => s.a1

/-- x[s] <- v: write it; the four are independent cells (10_state.md R22, R37). -/
def State.setReg (s : State) (r : Reg) (v : Word) : State :=
  match r with
  | .r2 => { s with r2 := v }
  | .r1 => { s with r1 := v }
  | .a2 => { s with a2 := v }
  | .a1 => { s with a1 := v }

/-- pc <- pc0 + 2, the advance over a narrow instruction (40_step_cycle.md R113). After a fetch the sum is at most
32768 and does not wrap (10_state.md R26). -/
def State.advanceNarrow (s : State) : State := { s with pc := s.pc + 2#16 }

/-- pc <- pc0 + 4, the advance over a wide instruction (40_step_cycle.md R113). -/
def State.advanceWide (s : State) : State := { s with pc := s.pc + 4#16 }

/-- pc <- t: any 16-bit value, unchecked (42_jumps.md R150). -/
def State.jump (s : State) (target : Word) : State := { s with pc := target }

/-- The memory replaced by the result of a write. -/
def State.withMem (s : State) (m : Memory) : State := { s with mem := m }

/-- Emit: append one transaction to the output trace (44_output.md R180); always accepted: DESIGN CHOICE of the
spec (D15, log 11), safe but for a sink that fails. -/
def State.emit (s : State) (x : Output) : State := { s with out := s.out ++ [x] }

/-- status <- Halted (45_halt.md R200). -/
def State.halt (s : State) : State := { s with status := .halted }

/-! ### Faults -/

/-- TAKING A FAULT (60_exceptions.md R216, R117, R213). `s` is the state when the step began: every write of the step
is discarded, the advance of pc too; status becomes Faulted and the record is filled with the instruction's address.
There is no handler and no vector, and there is no return from a fault (R218): only a reset leaves Faulted. What is
kept and recorded is a DESIGN CHOICE of the spec (D6, D7, log 7), unsafe for a claim about the state after a fault. -/
def State.takeFault (s : State) (info : FaultInfo) : State :=
  { s with status := .faulted { faultPc := s.pc, info := info } }

/-- The end of a step that began in `s` (40_step_cycle.md R117): its writes take effect together, or, where a `raise`
ended it, the fault is taken. -/
def State.conclude (s : State) (r : Except FaultInfo State) : Host.Outcome State Fault Refusal :=
  match r with
  | .ok t => .next t
  | .error info => .next (s.takeFault info)

/-- The kind of a fault (60_exceptions.md R213). -/
def FaultInfo.kind : FaultInfo → FaultKind
  | .decode _ => .decode
  | .bounds _ _ _ => .bounds
  | .operandClass _ _ _ _ => .operandClass

/-- The number of a kind (60_exceptions.md R215): DESIGN CHOICE of the spec (D14, log 13), safe. -/
def FaultKind.code : FaultKind → Nat
  | .load => 1
  | .decode => 2
  | .bounds => 3
  | .operandClass => 4

/-- The code of a status: 0 while Running or Halted (60_exceptions.md R215). -/
def Status.code : Status → Nat
  | .running => 0
  | .halted => 0
  | .faulted record => record.info.kind.code

end Sys2Proof.Machine
end

