-- ==== Sys2Proof/Machine/Operands.lean ====
section
/-! DEFINITION. The operand forms: the operand-class checks (40_step_cycle.md R116) and the three ways an operand
gives a value or an address (41_load_store.md, the list of addressing modes: immediate, absolute,
register-indirect). -/

namespace Sys2Proof.Machine

/-- Where a body requires a field to select a register of one class: raise OperandClassFault otherwise
(40_step_cycle.md R116). -/
def requireClass (required : RegClass) (opc : Byte) (field : Field) (r : Reg) : Except FaultInfo Unit :=
  if r.cls = required then .ok () else .error (.operandClass opc field r.selector required)

/-- "requires … select a data register". -/
def requireData (opc : Byte) (field : Field) (r : Reg) : Except FaultInfo Unit := requireClass .data opc field r

/-- "requires … select an address register". -/
def requireAddr (opc : Byte) (field : Field) (r : Reg) : Except FaultInfo Unit := requireClass .address opc field r

/-- The absolute address of STORE: the unsigned reading of the operand (41_load_store.md R142). -/
def absoluteAddress (imm : Word) : Word := imm

/-- The register-indirect address of LOADI, STOREI, OUTI, OUTIC: the unsigned reading of the register's value, the
register itself never modified (10_state.md R23, 41_load_store.md). -/
def indirectAddress (s : State) (r : Reg) : Word := s.reg r

/-- The write of STORE and STOREI: the word at `addr` <- `v`, then SetZN of the word read back from `addr`
(41_load_store.md R142, R143, 90_conflicts.md C10). -/
def storeAndReadBack (s : State) (addr v : Word) : Except FaultInfo State := do
  let m ← writeWord s.mem addr v
  let w ← readWord .dataRead m addr
  return (s.withMem m).setZN w

/-- The write of an arithmetic result: the destination, then O, then SetZN of the result (43_arithmetic.md R163). An
instruction that leaves O alone gives it O's own value. -/
def writeResult (s : State) (r : Reg) (result : Word) (overflow : Bool) : State :=
  ((s.setReg r result).setO overflow).setZN result

end Sys2Proof.Machine
end

