-- ==== Sys2Proof/Machine/Arithmetic.lean ====
section
/-! DEFINITION. ADD, ADDR, SUB, SUBR (43_arithmetic.md): 16-bit wrapping sums and differences (R160), in the order of
R163. -/

namespace Sys2Proof.Machine

/-- ADD (43_arithmetic.md R164). -/
def execAdd (reg1 : Reg) (imm : Word) (s : State) : Host.Outcome State Fault Refusal :=
  s.conclude do
    requireData 0x68#8 .reg1 reg1
    let a := s.reg reg1
    let r := a + imm
    return writeResult s.advanceWide reg1 r (ovfAdd a imm r)

/-- ADDR (43_arithmetic.md R165, R168). O is written only if ADDR_WRITES_O, which is open (log 2). -/
def execAddr (reg1 reg2 : Reg) (s : State) : Host.Outcome State Fault Refusal :=
  s.conclude do
    requireData 0x69#8 .reg1 reg1
    requireData 0x69#8 .reg2 reg2
    let a := s.reg reg1
    let b := s.reg reg2
    let r := a + b
    return if reg1 = reg2 then s.advanceNarrow
      else writeResult s.advanceNarrow reg1 r (if Config.addrWritesO then ovfAdd a b r else s.o)

/-- SUB (43_arithmetic.md R166). -/
def execSub (reg1 : Reg) (imm : Word) (s : State) : Host.Outcome State Fault Refusal :=
  s.conclude do
    requireData 0x6A#8 .reg1 reg1
    let a := s.reg reg1
    let r := a - imm
    return writeResult s.advanceWide reg1 r (ovfSub a imm r)

/-- SUBR (43_arithmetic.md R167, R168). -/
def execSubr (reg1 reg2 : Reg) (s : State) : Host.Outcome State Fault Refusal :=
  s.conclude do
    requireData 0x6B#8 .reg1 reg1
    requireData 0x6B#8 .reg2 reg2
    let a := s.reg reg1
    let b := s.reg reg2
    let r := a - b
    return if reg1 = reg2 then s.advanceNarrow
      else writeResult s.advanceNarrow reg1 r (ovfSub a b r)

end Sys2Proof.Machine
end

