-- ==== Sys2Proof/Machine/Halt.lean ====
section
/-! DEFINITION. HALT (45_halt.md). -/

namespace Sys2Proof.Machine

/-- HALT (45_halt.md R200): a completed instruction, so it keeps the advance of pc: DESIGN CHOICE of
the spec (D16, log 10), unsafe for a claim about that pc. -/
def execHalt (s : State) : Host.Outcome State Fault Refusal :=
  s.conclude (.ok s.advanceNarrow.halt)

end Sys2Proof.Machine
end

