-- ==== Sys2Proof/Machine/Jumps.lean ====
section
/-! DEFINITION. JMP, JMPZ, JMPN, JMPO (42_jumps.md): pc is advanced, then overwritten if the jump is taken (R150). -/

namespace Sys2Proof.Machine

/-- The common body: overwrite the advanced pc if `taken` (42_jumps.md R150). -/
def jumpIf (taken : Bool) (imm : Word) (s : State) : State :=
  if taken then s.advanceWide.jump imm else s.advanceWide

/-- JMP (42_jumps.md R151). -/
def execJmp (imm : Word) (s : State) : Host.Outcome State Fault Refusal :=
  s.conclude (.ok (jumpIf true imm s))

/-- JMPZ (42_jumps.md R152). -/
def execJmpz (imm : Word) (s : State) : Host.Outcome State Fault Refusal :=
  s.conclude (.ok (jumpIf s.z imm s))

/-- JMPN (42_jumps.md R153). -/
def execJmpn (imm : Word) (s : State) : Host.Outcome State Fault Refusal :=
  s.conclude (.ok (jumpIf s.n imm s))

/-- JMPO (42_jumps.md R154). -/
def execJmpo (imm : Word) (s : State) : Host.Outcome State Fault Refusal :=
  s.conclude (.ok (jumpIf s.o imm s))

end Sys2Proof.Machine
end

