-- ==== Sys2Proof/Machine/LoadStore.lean ====
section
/-! DEFINITION. LOAD, LOADI, STORE, STOREI (41_load_store.md). `s` is the state when the step began; a body runs on
the advanced state (40_step_cycle.md R113). -/

namespace Sys2Proof.Machine

/-- LOAD (41_load_store.md R140). -/
def execLoad (reg1 : Reg) (imm : Word) (s : State) : Host.Outcome State Fault Refusal :=
  s.conclude (.ok ((s.advanceWide.setReg reg1 imm).setZN imm))

/-- LOADI (41_load_store.md R141). The address is read before the destination is written. -/
def execLoadi (reg1 reg2 : Reg) (s : State) : Host.Outcome State Fault Refusal :=
  s.conclude do
    requireAddr 0x61#8 .reg2 reg2
    let v ← readWord .dataRead s.mem (indirectAddress s reg2)
    return (s.advanceNarrow.setReg reg1 v).setZN v

/-- STORE (41_load_store.md R142). -/
def execStore (reg1 : Reg) (imm : Word) (s : State) : Host.Outcome State Fault Refusal :=
  s.conclude (storeAndReadBack s.advanceWide (absoluteAddress imm) (s.reg reg1))

/-- STOREI (41_load_store.md R143). -/
def execStorei (reg1 reg2 : Reg) (s : State) : Host.Outcome State Fault Refusal :=
  s.conclude do
    requireAddr 0x63#8 .reg2 reg2
    storeAndReadBack s.advanceNarrow (indirectAddress s reg2) (s.reg reg1)

end Sys2Proof.Machine
end

