-- ==== Sys2Proof/Machine/Output.lean ====
section
/-! DEFINITION. OUT, OUTC, OUTR, OUTRC, OUTI, OUTIC, and the text a transaction stands for (44_output.md). -/

namespace Sys2Proof.Machine

/-! ### The instructions -/

/-- OUT (44_output.md R184). -/
def execOut (imm : Word) (s : State) : Host.Outcome State Fault Refusal :=
  s.conclude (.ok (s.advanceWide.emit (.num imm)))

/-- OUTC (44_output.md R185). -/
def execOutc (imm : Word) (s : State) : Host.Outcome State Fault Refusal :=
  s.conclude (.ok (s.advanceWide.emit (.char (lowByte imm))))

/-- OUTR (44_output.md R186). -/
def execOutr (reg1 : Reg) (s : State) : Host.Outcome State Fault Refusal :=
  s.conclude do
    requireData 0x6E#8 .reg1 reg1
    return s.advanceNarrow.emit (.num (s.reg reg1))

/-- OUTRC (44_output.md R187). -/
def execOutrc (reg1 : Reg) (s : State) : Host.Outcome State Fault Refusal :=
  s.conclude do
    requireData 0x6F#8 .reg1 reg1
    return s.advanceNarrow.emit (.char (lowByte (s.reg reg1)))

/-- OUTI (44_output.md R188). The word is read, SetZN is not called. -/
def execOuti (reg1 : Reg) (s : State) : Host.Outcome State Fault Refusal :=
  s.conclude do
    requireAddr 0x70#8 .reg1 reg1
    let v ← readWord .dataRead s.mem (indirectAddress s reg1)
    return s.advanceNarrow.emit (.num v)

/-- OUTIC (44_output.md R189). A whole word is read although only its low byte is shown. -/
def execOutic (reg1 : Reg) (s : State) : Host.Outcome State Fault Refusal :=
  s.conclude do
    requireAddr 0x71#8 .reg1 reg1
    let v ← readWord .dataRead s.mem (indirectAddress s reg1)
    return s.advanceNarrow.emit (.char (lowByte v))

/-! ### The text of the trace -/

/-- The ASCII byte of a decimal digit (44_output.md R181, 93_implementation_defined.md G2). -/
def digitByte (d : Nat) : Byte := BitVec.ofNat 8 (0x30 + d)

/-- The decimal digits of a number, no leading zeros, the single digit 0 for zero; `fuel` bounds their count. -/
def decimalDigits : Nat → Nat → List Byte
  | 0, _ => []
  | fuel + 1, k => if k < 10 then [digitByte k] else decimalDigits fuel (k / 10) ++ [digitByte (k % 10)]

/-- The text of `NUM v`: a minus sign 0x2D for a negative s(v), then the digits of its magnitude, nothing else
(44_output.md R181). That nothing else is written is a DESIGN CHOICE of the spec (D13, log 11), unsafe for a claim about
the bytes of the stream. A magnitude is at most 32768, five digits. -/
def decimalText (v : Word) : List Byte :=
  if v.toInt < 0 then 0x2D#8 :: decimalDigits 5 v.toInt.natAbs else decimalDigits 5 v.toInt.natAbs

/-- The text of a transaction (44_output.md R181, R182). -/
def Output.text : Output → List Byte
  | .num v => decimalText v
  | .char b => [b]

/-- The text of the whole run: the texts of its transactions in order, joined (44_output.md R183). -/
def State.outputText (s : State) : List Byte := s.out.flatMap Output.text

end Sys2Proof.Machine
end

