-- ==== Sys2Proof/Machine/Dispatch.lean ====
section
/-! DEFINITION. The advance and the body of every instruction (40_step_cycle.md R115), one arm per constructor. `s` is
the state when the step began; its status is not looked at: DEDUCED (log 15), safe. -/

namespace Sys2Proof.Machine

def exec (i : Instr) (s : State) : Host.Outcome State Fault Refusal :=
  match i with
  | .halt => Sys2Proof.Machine.execHalt s
  | .load reg1 imm => Sys2Proof.Machine.execLoad reg1 imm s
  | .loadi reg1 reg2 => Sys2Proof.Machine.execLoadi reg1 reg2 s
  | .store reg1 imm => Sys2Proof.Machine.execStore reg1 imm s
  | .storei reg1 reg2 => Sys2Proof.Machine.execStorei reg1 reg2 s
  | .jmp imm => Sys2Proof.Machine.execJmp imm s
  | .jmpz imm => Sys2Proof.Machine.execJmpz imm s
  | .jmpn imm => Sys2Proof.Machine.execJmpn imm s
  | .jmpo imm => Sys2Proof.Machine.execJmpo imm s
  | .add reg1 imm => Sys2Proof.Machine.execAdd reg1 imm s
  | .addr reg1 reg2 => Sys2Proof.Machine.execAddr reg1 reg2 s
  | .sub reg1 imm => Sys2Proof.Machine.execSub reg1 imm s
  | .subr reg1 reg2 => Sys2Proof.Machine.execSubr reg1 reg2 s
  | .out imm => Sys2Proof.Machine.execOut imm s
  | .outc imm => Sys2Proof.Machine.execOutc imm s
  | .outr reg1 => Sys2Proof.Machine.execOutr reg1 s
  | .outrc reg1 => Sys2Proof.Machine.execOutrc reg1 s
  | .outi reg1 => Sys2Proof.Machine.execOuti reg1 s
  | .outic reg1 => Sys2Proof.Machine.execOutic reg1 s

end Sys2Proof.Machine
end

