-- ==== Sys2Proof/Machine/Fetch.lean ====
section
/-! DEFINITION. Fetch and validate, the first two phases of a step (40_step_cycle.md R111, R112, R114). They read memory
and change nothing. -/

namespace Sys2Proof.Machine

/-- What the fetch phase reads (10_state.md R34: it exists only inside one step). -/
structure Fetched where
  opc : Byte
  selb : Byte
  imm : Word
deriving DecidableEq, Repr

/-- The fetch (40_step_cycle.md R112): the opcode byte, the selector byte always, then for a wide opcode the operand
word, the first read that fails raising BoundsFault: the order is a DESIGN CHOICE of the spec (D5, log 6), unsafe for a claim
that tells two faults of one instruction apart. A narrow instruction has no operand (30_encoding.md R85): the
field is then 0 and not used. -/
def fetch (m : Memory) (pc : Word) : Except FaultInfo Fetched := do
  let opc ← readByte .fetchOpcode m pc
  let selb ← readByte .fetchSelector m (pc + 1#16)
  if isWide opc then
    let imm ← readWord .fetchOperand m (pc + 2#16)
    return { opc := opc, selb := selb, imm := imm }
  else
    return { opc := opc, selb := selb, imm := 0#16 }

/-- Fetch, then validate (40_step_cycle.md R114): DecodeFault if the opcode is not valid (60_exceptions.md R210), else
the instruction the fields name. -/
def fetchInstr (m : Memory) (pc : Word) : Except FaultInfo Instr := do
  let f ← fetch m pc
  match decodeFields f.opc f.selb f.imm with
  | some i => return i
  | none => .error (.decode f.opc)

end Sys2Proof.Machine
end

