-- ==== Sys2Proof/Machine/Step.lean ====
section
/-! DEFINITION. One step (40_step_cycle.md R110, R111) and where it fetches. -/

namespace Sys2Proof.Machine

/-- One step. In Running it fetches and validates, then runs the instruction, and always ends in a next state, which is
Running, Halted or Faulted (00_scope.md R10); a fetch or decode fault is taken as any other (R216). In Halted and
Faulted the core has no step (R10, 45_halt.md R201, 60_exceptions.md R218): the fault outcome there is DEDUCED
(log 1), safe. -/
def step (s : State) : Host.Outcome State Fault Refusal :=
  match s.status with
  | .running =>
    match fetchInstr s.mem s.pc with
    | .ok i => exec i s
    | .error info => .next (s.takeFault info)
  | .halted => .fault .halted
  | .faulted record => .fault (.faulted record)

/-- `s` with one instruction, given as spec/opcode_table.json numbers its bits, stored where the next step fetches, the
core released to take that step (status Running). DESIGN CHOICE (log 4), safe. -/
def State.withFetchWord (s : State) (nbits w : Nat) : State :=
  { s with mem := Memory.place s.mem s.pc.toNat (tableBytes nbits w), status := .running }

end Sys2Proof.Machine
end

