-- ==== Sys2Proof/Machine/Startup.lean ====
section
/-! DEFINITION. Reset, the contract of the load, and what the host sees at the end (70_reset_and_hazards.md R240 to
R245, R250, 60_exceptions.md R214, R227). None of it is a step of the core (D18, D22). -/

namespace Sys2Proof.Machine

/-- Processor reset: registers, flags and pc zero; status Running, the fault record void, the output trace empty
(70_reset_and_hazards.md R240, D18). It does not touch memory (R241). -/
def State.processorReset (s : State) : State := { State.reset with mem := s.mem }

/-- Memory reset: every location zero (70_reset_and_hazards.md R241). It does not touch the processor. -/
def State.memoryReset (s : State) : State := { s with mem := [] }

/-- The start-up sequence (70_reset_and_hazards.md R242, R244): memory reset, processor reset, the program copied to
address 0, the core released; LoadFault, and no core, for a program longer than memory (60_exceptions.md R214). The
program is IMAGE, the model's argument (92_eei_decisions.md D23). DESIGN CHOICE (log 4), safe. -/
def startup (s : State) (program : List Byte) : Except FaultKind State :=
  if Config.memSize < program.length then .error .load
  else
    let s' := s.memoryReset.processorReset
    .ok { s' with mem := Memory.place s'.mem 0 program }

/-- The process behaviour a final status maps to (60_exceptions.md R227): exit status 0, or non-zero. The number and
the message are outside the core. -/
inductive ProcessExit where
  | zero
  | nonZero
deriving DecidableEq, Repr

/-- The exit of a run that has ended, none while Running (60_exceptions.md R227, 70_reset_and_hazards.md R251). -/
def State.processExit (s : State) : Option ProcessExit :=
  match s.status with
  | .running => none
  | .halted => some .zero
  | .faulted _ => some .nonZero

/-- What the message on the error stream names: the fault and, for a fault of the core, the offending address or opcode,
which its record holds (60_exceptions.md R227, R213; the record's fields are D7, log 7). Its wording is outside the core
(00_scope.md R4); that it holds the kind and the whole record is a DESIGN CHOICE (log 13), unsafe
for a claim about the message. -/
structure ErrorMessage where
  kind : FaultKind
  record : Option FaultRecord
deriving DecidableEq, Repr

/-- How a process ends for the surrounding software (60_exceptions.md R227): its exit, its error message if there is one,
the bytes of its output stream. -/
structure ProcessEnd where
  exit : ProcessExit
  message : Option ErrorMessage
  stream : List Byte
deriving DecidableEq, Repr

/-- The error message a status stands for: one exactly in Faulted, with the fault record (60_exceptions.md R227); none
in Halted: DESIGN CHOICE (log 13), unsafe for a claim about the message. -/
def State.errorMessage (s : State) : Option ErrorMessage :=
  match s.status with
  | .running => none
  | .halted => none
  | .faulted record => some { kind := record.info.kind, record := some record }

/-- The end of a process whose core stands in `s`: none while Running; in Halted and in Faulted the output stream holds
the text of the trace (60_exceptions.md R227, 44_output.md R183). -/
def State.processEnd (s : State) : Option ProcessEnd :=
  s.processExit.map fun exit => { exit := exit, message := s.errorMessage, stream := s.outputText }

/-- The end of a process that the loader stopped: reported, non-zero exit, no instruction executed, so no output
(60_exceptions.md R214, R227). That its message has no record is a DESIGN CHOICE (log 13), unsafe for a
claim about the message. `kind` is what `startup` answers, LoadFault. -/
def loadFaultEnd (kind : FaultKind) : ProcessEnd :=
  { exit := .nonZero, message := some { kind := kind, record := none }, stream := [] }

end Sys2Proof.Machine
end

