-- ==== Sys2Proof/Safety.lean ====
section
/-! DEFINITION. What a legal state is, what a run is, and what counts as a successful one. -/

namespace Sys2Proof.Machine

/-- A fault report that the machine can have made: a DecodeFault names a byte outside the valid set (60_exceptions.md
R210), a BoundsFault an address its access has no right to, with the width that access has (R211, 20_memory.md R58), an
OperandClassFault a selector of a class other than the required one (R212). -/
def FaultInfo.legal : FaultInfo → Bool
  | .decode opc => !isValid opc
  | .bounds addr .fetchOpcode width => width == .byte && Config.memSize ≤ addr.toNat
  | .bounds addr .fetchSelector width => width == .byte && Config.memSize ≤ addr.toNat
  | .bounds addr .fetchOperand width => width == .word && Config.wordLimit ≤ addr.toNat
  | .bounds addr .dataRead width => width == .word && Config.wordLimit ≤ addr.toNat
  | .bounds addr .dataWrite width => width == .word && Config.wordLimit ≤ addr.toNat
  | .operandClass opc _ sel required => isValid opc && (Reg.ofSelector sel).cls != required

/-- Byte `k` of the instruction at pc. -/
def State.instrByte (s : State) (k : Nat) : Byte := s.mem.get (s.pc.toNat + k)

/-- The raw selector that a field of the instruction at pc holds (30_encoding.md R83). -/
def State.instrSelector (s : State) (field : Field) : BitVec 2 :=
  match field with
  | .reg1 => reg1Field (s.instrByte 1)
  | .reg2 => reg2Field (s.instrByte 1)

/-- The value of the register that a field of the instruction at pc selects. -/
def State.instrReg (s : State) (field : Field) : Word := s.reg (Reg.ofSelector (s.instrSelector field))

/-- The report is true of the instruction at pc: a DecodeFault names its opcode byte (60_exceptions.md R210), a
BoundsFault the address its fetch or its body gives to that access (R211, 40_step_cycle.md R112, 41_load_store.md R141 to
R143, 44_output.md R188, R189), an OperandClassFault its opcode byte and the selector in that field (R212). -/
def State.reportFits (s : State) : FaultInfo → Bool
  | .decode opc => opc == s.instrByte 0
  | .bounds addr .fetchOpcode _ => addr == s.pc
  | .bounds addr .fetchSelector _ => addr == s.pc + 1#16
  | .bounds addr .fetchOperand _ => addr == s.pc + 2#16 && isWide (s.instrByte 0)
  | .bounds addr .dataRead _ =>
    (s.instrByte 0 == 0x61#8 && addr == s.instrReg .reg2) ||
      ((s.instrByte 0 == 0x70#8 || s.instrByte 0 == 0x71#8) && addr == s.instrReg .reg1)
  | .bounds addr .dataWrite _ =>
    (s.instrByte 0 == 0x62#8 && addr == joinBytes (s.instrByte 2) (s.instrByte 3)) ||
      (s.instrByte 0 == 0x63#8 && addr == s.instrReg .reg2)
  | .operandClass opc field sel _ => opc == s.instrByte 0 && sel == s.instrSelector field

/-- The fault record of a Faulted state is true: pc equals fault_pc, because a fault is precise and keeps nothing
(60_exceptions.md R216; D6, D7, log 7), the report is one the machine can make, and it fits the instruction at pc.
Nothing is asked of a state that is not Faulted. -/
def State.recordTrue (s : State) : Bool :=
  match s.status with
  | .running => true
  | .halted => true
  | .faulted record => record.faultPc == s.pc && record.info.legal && s.reportFits record.info

/-- The machine's invariant: memory inside the address space (20_memory.md R50) and in the canonical form, which is the
model's own DESIGN CHOICE (log 3); Z and N never both 1 (10_state.md R27); the fault record true. -/
structure Inv (s : State) : Prop where
  memory : Memory.wf s.mem
  flags : (s.z && s.n) = false
  record : s.recordTrue = true

/-- The state after at most `fuel` steps, staying where there is no step (40_step_cycle.md R110, R121). -/
def runFor : Nat → State → State
  | 0, s => s
  | fuel + 1, s =>
    match step s with
    | .next t => runFor fuel t
    | .fault _ => s
    | .refused _ => s

/-- The process that loads `program` and runs the core for at most `fuel` steps: how it has ended, none while it still runs
(60_exceptions.md R227). After a LoadFault no step is taken, whatever `fuel` is (R214). -/
def processRun (fuel : Nat) (s : State) (program : List Byte) : Option ProcessEnd :=
  match startup s program with
  | .error kind => some (loadFaultEnd kind)
  | .ok t => (runFor fuel t).processEnd

/-- The core is Faulted. -/
def State.isFaulted (s : State) : Bool :=
  match s.status with
  | .running => false
  | .halted => false
  | .faulted _ => true

/-- A successful run within `fuel` steps: it has ended Halted; a Faulted run is never one (60_exceptions.md R218,
70_reset_and_hazards.md R251). -/
def Succeeds (fuel : Nat) (s : State) : Prop := (runFor fuel s).status = .halted

/-- No fault within `fuel` steps. -/
def RunsWithoutFault (fuel : Nat) (s : State) : Prop := (runFor fuel s).isFaulted = false

end Sys2Proof.Machine
end

