-- ==== Sys2Proof/Certificates/Slice0/Obligations.lean ====
section
/-! DEFINITION. The statements for the provers, and the vocabulary they share. "log n" is notes/assumptions/<n>.md and
"D n" a decision of spec/92_eei_decisions.md: a clause that rests on one is the spec's own choice, not its source's. -/

namespace Sys2Proof.Slice0

open Sys2Proof.Machine

/-- Every register but `r` is unchanged. -/
def RegsKeptBut (r : Reg) (s t : State) : Prop := ∀ q, q ≠ r → t.reg q = s.reg q

/-- Every register is unchanged. -/
def RegsKept (s t : State) : Prop := ∀ q, t.reg q = s.reg q

/-- Every byte of memory reads as before. -/
def MemKept (s t : State) : Prop := ∀ a, t.mem.get a = s.mem.get a

/-- Z and N are those of the 16-bit value `v`: Zero = (v == 0), Negative = (s(v) < 0) (10_state.md R27). -/
def FlagsOf (v : Word) (t : State) : Prop := (t.z = true ↔ v = 0#16) ∧ (t.n = true ↔ v.toInt < 0)

/-- The three flags are unchanged. -/
def FlagsKept (s t : State) : Prop := t.z = s.z ∧ t.n = s.n ∧ t.o = s.o

/-- Status and output trace are unchanged. -/
def StatusAndOutputKept (s t : State) : Prop := t.status = s.status ∧ t.out = s.out

/-- An integer that 16-bit two's complement does not hold (00_scope.md R7). -/
def OutOfRange (x : Int) : Prop := x < -32768 ∨ 32767 < x

/-- The word whose low byte is at address `a` and whose high byte is at `a + 1` (20_memory.md R53). -/
def IsWordAt (m : Memory) (a : Nat) (v : Word) : Prop := v.toNat = (m.get a).toNat + 256 * (m.get (a + 1)).toNat

/-- The state in which the step that began in `s` ended by the fault `info`: nothing of the step is kept (D6), and the
record names the instruction's address (D7). -/
def faultedAt (s : State) (info : FaultInfo) : State :=
  { s with status := .faulted { faultPc := s.pc, info := info } }

/-- The opcode byte a step of `s` fetches. -/
def opcodeAt (s : State) : Byte := s.mem.get s.pc.toNat

/-- Memory holds the bytes `bs` from address `a` up, all inside the array. -/
def HoldsBytes (m : Memory) (a : Nat) (bs : List Byte) : Prop :=
  a + bs.length ≤ 32768 ∧ ∀ k (h : k < bs.length), m.get (a + k) = bs[k]

end Sys2Proof.Slice0

open Sys2Proof Sys2Proof.Machine Sys2Proof.Slice0

/-! ### Encoding -/

/-- Decode and encode agree: the bytes of every instruction decode to it and leave the bytes after it
(30_encoding.md R80 to R88). That unused fields are written 0 is D19. -/
def Obligations.DecodeOfEncodeIsTheInstruction : Prop :=
  ∀ (i : Instr) (rest : List Byte), decodeBytes (encode i ++ rest) = .ok (i, rest)

/-- The source's opcode set: exactly 0x31 and 0x60 to 0x71 decode, and a Running step that fetches any other opcode byte
(with its selector byte inside memory) ends in a DecodeFault (30_encoding.md R89). -/
def Obligations.ExactlyNineteenOpcodesDecode : Prop :=
  (∀ (opc selb : Byte) (imm : Word), (decodeFields opc selb imm).isSome = true ↔
    (opc = 0x31#8 ∨ (0x60 ≤ opc.toNat ∧ opc.toNat ≤ 0x71))) ∧
  (∀ s : State, s.status = .running → s.pc.toNat ≤ 32766 →
    ¬ (opcodeAt s = 0x31#8 ∨ (0x60 ≤ (opcodeAt s).toNat ∧ (opcodeAt s).toNat ≤ 0x71)) →
    ∃ t record, step s = .next t ∧ t.status = .faulted record ∧ record.info.kind = .decode)

/-- The model follows D11 and D12 (log 9): bits 5..2 of the selector byte change no instruction; HALT, the jumps, OUT
and OUTC look at no bit of it; the rows that name no reg2 look at bits 1..0 only (30_encoding.md R84, R90). -/
def Obligations.ReservedBitsAndUnusedSelectorsAreIgnored : Prop :=
  (∀ (opc selb selb' : Byte) (imm : Word), selb &&& 0xC3#8 = selb' &&& 0xC3#8 →
    decodeFields opc selb imm = decodeFields opc selb' imm) ∧
  (∀ (opc selb selb' : Byte) (imm : Word),
    opc ∈ [0x31#8, 0x64#8, 0x65#8, 0x66#8, 0x67#8, 0x6C#8, 0x6D#8] →
    decodeFields opc selb imm = decodeFields opc selb' imm) ∧
  (∀ (opc selb selb' : Byte) (imm : Word),
    opc ∈ [0x60#8, 0x62#8, 0x68#8, 0x6A#8, 0x6E#8, 0x6F#8, 0x70#8, 0x71#8] → selb &&& 0x03#8 = selb' &&& 0x03#8 →
    decodeFields opc selb imm = decodeFields opc selb' imm)

/-- What a decoded instruction was read from: its own opcode byte, a selector byte, and two operand bytes exactly for the
ten wide opcodes (30_encoding.md R80, R86, R87). -/
def Obligations.DecodedLengthFollowsTheWideSet : Prop :=
  ∀ (bs rest : List Byte) (i : Instr), decodeBytes bs = .ok (i, rest) →
    ∃ selb operand, bs = i.opcode :: selb :: (operand ++ rest) ∧
      operand.length = if i.opcode ∈ [0x60#8, 0x62#8, 0x64#8, 0x65#8, 0x66#8, 0x67#8, 0x68#8, 0x6A#8, 0x6C#8, 0x6D#8]
        then 2 else 0

/-- One word of every row, written out byte by byte in 95_test_vectors.md section 3.2, decodes to its instruction; and
the four values next to the valid set, 0x30, 0x32, 0x5F and 0x72, do not decode. That 31 FF and 60 FD 34 12, which set
unused fields and reserved bits, decode at all is the spec's choice D11 and D12 (log 9). -/
def Obligations.WordsOfTheSpecDecodeAsItSays : Prop :=
  decodeBytes [0x31#8, 0xFF#8] = .ok (.halt, []) ∧
  decodeBytes [0x60#8, 0xFD#8, 0x34#8, 0x12#8] = .ok (.load .r1 0x1234#16, []) ∧
  decodeBytes [0x61#8, 0xC0#8] = .ok (.loadi .r2 .a1, []) ∧
  decodeBytes [0x62#8, 0x01#8, 0x00#8, 0x02#8] = .ok (.store .r1 0x0200#16, []) ∧
  decodeBytes [0x63#8, 0x80#8] = .ok (.storei .r2 .a2, []) ∧
  decodeBytes [0x64#8, 0x00#8, 0x04#8, 0x00#8] = .ok (.jmp 0x0004#16, []) ∧
  decodeBytes [0x65#8, 0x00#8, 0x12#8, 0x00#8] = .ok (.jmpz 0x0012#16, []) ∧
  decodeBytes [0x66#8, 0x00#8, 0x00#8, 0x01#8] = .ok (.jmpn 0x0100#16, []) ∧
  decodeBytes [0x67#8, 0x00#8, 0x14#8, 0x00#8] = .ok (.jmpo 0x0014#16, []) ∧
  decodeBytes [0x68#8, 0x01#8, 0x01#8, 0x00#8] = .ok (.add .r1 0x0001#16, []) ∧
  decodeBytes [0x69#8, 0x40#8] = .ok (.addr .r2 .r1, []) ∧
  decodeBytes [0x6A#8, 0x00#8, 0x01#8, 0x00#8] = .ok (.sub .r2 0x0001#16, []) ∧
  decodeBytes [0x6B#8, 0x41#8] = .ok (.subr .r1 .r1, []) ∧
  decodeBytes [0x6C#8, 0x00#8, 0x9C#8, 0xFF#8] = .ok (.out 0xFF9C#16, []) ∧
  decodeBytes [0x6D#8, 0x00#8, 0x0A#8, 0x00#8] = .ok (.outc 0x000A#16, []) ∧
  decodeBytes [0x6E#8, 0x01#8] = .ok (.outr .r1, []) ∧
  decodeBytes [0x6F#8, 0x00#8] = .ok (.outrc .r2, []) ∧
  decodeBytes [0x70#8, 0x02#8] = .ok (.outi .a2, []) ∧
  decodeBytes [0x71#8, 0x03#8] = .ok (.outic .a1, []) ∧
  decodeBytes [0x30#8, 0x00#8] = .error (.invalidOpcode 0x30#8) ∧
  decodeBytes [0x32#8, 0x00#8] = .error (.invalidOpcode 0x32#8) ∧
  decodeBytes [0x5F#8, 0x00#8] = .error (.invalidOpcode 0x5F#8) ∧
  decodeBytes [0x72#8, 0x00#8] = .error (.invalidOpcode 0x72#8)

/-- The selector map and the classes (10_state.md R22): 0 is R2, 1 is R1, 2 is A2, 3 is A1; data is s <= 1, address is
s >= 2; the register read and the register written are the one named. -/
def Obligations.SelectorsNameR2R1A2A1 : Prop :=
  (∀ s : State, s.reg (Reg.ofSelector 0#2) = s.r2 ∧ s.reg (Reg.ofSelector 1#2) = s.r1 ∧
    s.reg (Reg.ofSelector 2#2) = s.a2 ∧ s.reg (Reg.ofSelector 3#2) = s.a1) ∧
  (∀ (s : State) (v : Word), s.setReg (Reg.ofSelector 0#2) v = { s with r2 := v } ∧
    s.setReg (Reg.ofSelector 1#2) v = { s with r1 := v } ∧ s.setReg (Reg.ofSelector 2#2) v = { s with a2 := v } ∧
    s.setReg (Reg.ofSelector 3#2) v = { s with a1 := v }) ∧
  (∀ sel : BitVec 2, ((Reg.ofSelector sel).isData = true ↔ sel.toNat ≤ 1) ∧
    ((Reg.ofSelector sel).isAddr = true ↔ 2 ≤ sel.toNat))

/-! ### Memory -/

/-- A read after a write gives what was written, byte and word, and a write changes only the bytes it names
(20_memory.md R65). -/
def Obligations.ReadAfterWriteRoundTrips : Prop :=
  (∀ (m : Memory) (a v : Word) (k : Access), a.toNat < 32768 →
    ∃ m', writeByte m a v = .ok m' ∧ readByte k m' a = .ok (v.setWidth 8) ∧
      ∀ b, b ≠ a.toNat → m'.get b = m.get b) ∧
  (∀ (m : Memory) (a v : Word) (k : Access), a.toNat < 32767 →
    ∃ m', writeWord m a v = .ok m' ∧ readWord k m' a = .ok v ∧
      ∀ b, b ≠ a.toNat → b ≠ a.toNat + 1 → m'.get b = m.get b)

/-- The two reads: BoundsFault with the address given exactly from 32768 (byte) or 32767 (word) up, otherwise the byte,
or mem[a] + 256 * mem[a + 1] (20_memory.md R52, R53). That the fault reports the address, the access and its width is the
spec's choice D7 (log 7). -/
def Obligations.ReadsAreBoundedAndLittleEndian : Prop :=
  ∀ (m : Memory) (a : Word) (k : Access),
    (32768 ≤ a.toNat → readByte k m a = .error (.bounds a k .byte)) ∧
    (a.toNat < 32768 → readByte k m a = .ok (m.get a.toNat)) ∧
    (32767 ≤ a.toNat → readWord k m a = .error (.bounds a k .word)) ∧
    (a.toNat < 32767 → ∃ v, readWord k m a = .ok v ∧ IsWordAt m a.toNat v)

/-- The two writes: BoundsFault with no memory written exactly from 32768 (byte) or 32767 (word) up, otherwise the low
byte at a and, for a word, the high byte at a + 1 (20_memory.md R54, R55; that neither byte is written then and
what the fault reports are D6 and D7, log 7). -/
def Obligations.WritesAreBoundedAndLittleEndian : Prop :=
  ∀ (m : Memory) (a v : Word),
    (32768 ≤ a.toNat → writeByte m a v = .error (.bounds a .dataWrite .byte)) ∧
    (a.toNat < 32768 → ∃ m', writeByte m a v = .ok m' ∧ (m'.get a.toNat).toNat = v.toNat % 256) ∧
    (32767 ≤ a.toNat → writeWord m a v = .error (.bounds a .dataWrite .word)) ∧
    (a.toNat < 32767 → ∃ m', writeWord m a v = .ok m' ∧
      (m'.get a.toNat).toNat = v.toNat % 256 ∧ (m'.get (a.toNat + 1)).toNat = v.toNat / 256)

/-- The canonical form is canonical: two memories in it that read the same everywhere are the same list. The form is the
model's own way to hold the array of 20_memory.md R50 (log 3). -/
def Obligations.CanonicalMemoriesReadingAlikeAreEqual : Prop :=
  ∀ m m' : Memory, m.wf → m'.wf → (∀ a, m.get a = m'.get a) → m = m'

/-! ### Flags -/

/-- SetZN (40_step_cycle.md R119): Z and N from the value, each set or cleared, and nothing else touched, O included. -/
def Obligations.SetZNWritesOnlyZeroAndNegative : Prop :=
  ∀ (s : State) (v : Word), FlagsOf v (s.setZN v) ∧ s.setZN v = { s with z := (s.setZN v).z, n := (s.setZN v).n }

/-- The two overflow rules say exactly when the true signed sum, or difference, is outside -32768 to 32767
(43_arithmetic.md R161, R162, in the sign-bit reading of D10, log 8). -/
def Obligations.OverflowRulesAreSignedOverflow : Prop :=
  (∀ a b : Word, ovfAdd a b (a + b) = true ↔ OutOfRange (a.toInt + b.toInt)) ∧
  (∀ a b : Word, ovfSub a b (a - b) = true ↔ OutOfRange (a.toInt - b.toInt))

/-! ### Load and store -/

/-- LOAD completes in every state (41_load_store.md R140): the destination, any of the four, holds the operand; Z and N
are the operand's; nothing else changes but pc. -/
def Obligations.LoadWritesItsOperand : Prop :=
  ∀ (r : Reg) (v : Word) (s : State), ∃ t, exec (.load r v) s = .next t ∧
    t.reg r = v ∧ RegsKeptBut r s t ∧ FlagsOf v t ∧ t.o = s.o ∧ t.pc = s.pc + 4#16 ∧ MemKept s t ∧
    StatusAndOutputKept s t

/-- LOADI completes whenever reg2 is an address register whose value is at most 32766 (41_load_store.md R141): the
destination holds the word there, the address being read before the destination is written. -/
def Obligations.LoadiWritesTheWordAtItsAddress : Prop :=
  ∀ (r q : Reg) (s : State), q.isAddr = true → (s.reg q).toNat < 32767 → ∃ t v, exec (.loadi r q) s = .next t ∧
    IsWordAt s.mem (s.reg q).toNat v ∧ t.reg r = v ∧ RegsKeptBut r s t ∧ FlagsOf v t ∧ t.o = s.o ∧
    t.pc = s.pc + 2#16 ∧ MemKept s t ∧ StatusAndOutputKept s t

/-- STORE completes whenever its operand is at most 32766 (41_load_store.md R142): the word at the operand's address is
the source register's value, every other byte reads as before, Z and N are those of the value stored. -/
def Obligations.StoreWritesOnlyTheWordAtItsOperand : Prop :=
  ∀ (r : Reg) (imm : Word) (s : State), (absoluteAddress imm).toNat < 32767 → ∃ t, exec (.store r imm) s = .next t ∧
    IsWordAt t.mem (absoluteAddress imm).toNat (s.reg r) ∧
    (∀ b, b ≠ (absoluteAddress imm).toNat → b ≠ (absoluteAddress imm).toNat + 1 → t.mem.get b = s.mem.get b) ∧
    RegsKept s t ∧ FlagsOf (s.reg r) t ∧ t.o = s.o ∧ t.pc = s.pc + 4#16 ∧ StatusAndOutputKept s t

/-- STOREI completes whenever reg2 is an address register whose value is at most 32766 (41_load_store.md R143): the word
there is the source register's value, every other byte reads as before, no register changes. -/
def Obligations.StoreiWritesOnlyTheWordAtItsAddress : Prop :=
  ∀ (r q : Reg) (s : State), q.isAddr = true → (indirectAddress s q).toNat < 32767 →
    ∃ t, exec (.storei r q) s = .next t ∧
    IsWordAt t.mem (indirectAddress s q).toNat (s.reg r) ∧
    (∀ b, b ≠ (indirectAddress s q).toNat → b ≠ (indirectAddress s q).toNat + 1 → t.mem.get b = s.mem.get b) ∧
    RegsKept s t ∧ FlagsOf (s.reg r) t ∧ t.o = s.o ∧ t.pc = s.pc + 2#16 ∧ StatusAndOutputKept s t

/-! ### Jumps -/

/-- The four jumps complete in every state and write pc only (42_jumps.md R151 to R154): the operand if the jump is taken,
pc0 + 4 otherwise. -/
def Obligations.JumpsWriteOnlyThePc : Prop :=
  ∀ (imm : Word) (s : State),
    exec (.jmp imm) s = .next { s with pc := imm } ∧
    exec (.jmpz imm) s = .next { s with pc := if s.z = true then imm else s.pc + 4#16 } ∧
    exec (.jmpn imm) s = .next { s with pc := if s.n = true then imm else s.pc + 4#16 } ∧
    exec (.jmpo imm) s = .next { s with pc := if s.o = true then imm else s.pc + 4#16 }

/-! ### Arithmetic -/

/-- ADD completes whenever reg1 is a data register (43_arithmetic.md R160, R164): the destination is the signed sum brought
back into 16 bits, O says whether that changed it (assigned both ways: D8, log 8), Z and N are the result's. -/
def Obligations.AddWrapsAndAssignsOverflow : Prop :=
  ∀ (r : Reg) (imm : Word) (s : State), r.isData = true → ∃ t, exec (.add r imm) s = .next t ∧
    (t.reg r).toInt = ((s.reg r).toInt + imm.toInt).bmod 65536 ∧ RegsKeptBut r s t ∧ FlagsOf (t.reg r) t ∧
    (t.o = true ↔ OutOfRange ((s.reg r).toInt + imm.toInt)) ∧ t.pc = s.pc + 4#16 ∧ MemKept s t ∧
    StatusAndOutputKept s t

/-- SUB completes whenever reg1 is a data register (43_arithmetic.md R160, R166): as ADD, with the difference register
minus operand (D8, log 8). -/
def Obligations.SubWrapsAndAssignsOverflow : Prop :=
  ∀ (r : Reg) (imm : Word) (s : State), r.isData = true → ∃ t, exec (.sub r imm) s = .next t ∧
    (t.reg r).toInt = ((s.reg r).toInt - imm.toInt).bmod 65536 ∧ RegsKeptBut r s t ∧ FlagsOf (t.reg r) t ∧
    (t.o = true ↔ OutOfRange ((s.reg r).toInt - imm.toInt)) ∧ t.pc = s.pc + 4#16 ∧ MemKept s t ∧
    StatusAndOutputKept s t

/-- ADDR completes whenever both selectors are data registers and differ (43_arithmetic.md R165). Overflow is the open
switch ADDR_WRITES_O (D9, log 2), and the statement holds for both settings: assigned as ADD does, or kept. -/
def Obligations.AddrWrapsWithOverflowLeftToTheSwitch : Prop :=
  ∀ (r q : Reg) (s : State), r.isData = true → q.isData = true → r ≠ q → ∃ t, exec (.addr r q) s = .next t ∧
    (t.reg r).toInt = ((s.reg r).toInt + (s.reg q).toInt).bmod 65536 ∧ RegsKeptBut r s t ∧ FlagsOf (t.reg r) t ∧
    (t.o = true ↔ if Config.addrWritesO = true then OutOfRange ((s.reg r).toInt + (s.reg q).toInt) else s.o = true) ∧
    t.pc = s.pc + 2#16 ∧ MemKept s t ∧ StatusAndOutputKept s t

/-- SUBR completes whenever both selectors are data registers and differ (43_arithmetic.md R167): as SUB, with reg2 as the
subtrahend (D8, log 8). -/
def Obligations.SubrWrapsAndAssignsOverflow : Prop :=
  ∀ (r q : Reg) (s : State), r.isData = true → q.isData = true → r ≠ q → ∃ t, exec (.subr r q) s = .next t ∧
    (t.reg r).toInt = ((s.reg r).toInt - (s.reg q).toInt).bmod 65536 ∧ RegsKeptBut r s t ∧ FlagsOf (t.reg r) t ∧
    (t.o = true ↔ OutOfRange ((s.reg r).toInt - (s.reg q).toInt)) ∧
    t.pc = s.pc + 2#16 ∧ MemKept s t ∧ StatusAndOutputKept s t

/-- The explicit no-op: ADDR and SUBR of a data register with itself change pc only, whatever the register holds
(43_arithmetic.md R168). -/
def Obligations.AddrAndSubrOfOneRegisterDoNothing : Prop :=
  ∀ (r : Reg) (s : State), r.isData = true →
    exec (.addr r r) s = .next { s with pc := s.pc + 2#16 } ∧ exec (.subr r r) s = .next { s with pc := s.pc + 2#16 }

/-! ### Output and halt -/

/-- OUT and OUTC complete in every state (44_output.md R184, R185): one transaction, the operand or its low byte; nothing
else changes but pc. -/
def Obligations.OutAndOutcEmitTheirOperand : Prop :=
  ∀ (imm : Word) (s : State),
    exec (.out imm) s = .next { s with pc := s.pc + 4#16, out := s.out ++ [.num imm] } ∧
    exec (.outc imm) s = .next { s with pc := s.pc + 4#16, out := s.out ++ [.char (imm.setWidth 8)] }

/-- OUTR and OUTRC complete whenever reg1 is a data register (44_output.md R186, R187): one transaction, its value or its
low byte; nothing else changes but pc. -/
def Obligations.OutrAndOutrcEmitADataRegister : Prop :=
  ∀ (r : Reg) (s : State), r.isData = true →
    exec (.outr r) s = .next { s with pc := s.pc + 2#16, out := s.out ++ [.num (s.reg r)] } ∧
    exec (.outrc r) s = .next { s with pc := s.pc + 2#16, out := s.out ++ [.char ((s.reg r).setWidth 8)] }

/-- OUTI and OUTIC complete whenever reg1 is an address register whose value is at most 32766 (44_output.md R188, R189):
one transaction, the word there or the byte there (the low byte of a little-endian word); no flag changes. -/
def Obligations.OutiAndOuticEmitTheWordAtTheirAddress : Prop :=
  ∀ (r : Reg) (s : State), r.isAddr = true → (s.reg r).toNat < 32767 →
    (∃ v, IsWordAt s.mem (s.reg r).toNat v ∧
      exec (.outi r) s = .next { s with pc := s.pc + 2#16, out := s.out ++ [.num v] }) ∧
    exec (.outic r) s = .next { s with pc := s.pc + 2#16, out := s.out ++ [.char (s.mem.get (s.reg r).toNat)] }

/-- HALT completes in every state (45_halt.md R200): status Halted and pc past the HALT (the spec's choice D16, log 10),
nothing else. -/
def Obligations.HaltSetsStatusAndKeepsTheRest : Prop :=
  ∀ s : State, exec .halt s = .next { s with pc := s.pc + 2#16, status := .halted }

/-- The text of a number (44_output.md R181; no separator is D13, log 11): a minus sign exactly for a negative signed
reading, then one to five digits in ASCII that denote its magnitude, none leading zero but the single 0. -/
def Obligations.DecimalTextDenotesTheSignedReading : Prop :=
  ∀ v : Word, ∃ ds : List Nat,
    (Output.num v).text = (if v.toInt < 0 then [0x2D#8] else []) ++ ds.map (fun d => BitVec.ofNat 8 (0x30 + d)) ∧
    1 ≤ ds.length ∧ ds.length ≤ 5 ∧ (∀ d ∈ ds, d ≤ 9) ∧ (ds.head? = some 0 → ds = [0]) ∧
    ds.foldl (fun x d => 10 * x + d) 0 = v.toInt.natAbs

/-- The text of a character is its one byte; the text of a run is the concatenation of the texts of its transactions in
program order, so each transaction appends its own text, and it is empty after reset, because reset empties the trace, the
spec's choice D18 (log 12) (44_output.md R182, R183, 10_state.md R32, R35). -/
def Obligations.RunTextIsTheConcatenation : Prop :=
  (∀ b : Byte, (Output.char b).text = [b]) ∧
  (∀ s : State, s.outputText = (s.out.map Output.text).flatten) ∧
  State.reset.outputText = [] ∧
  (∀ (s : State) (x : Output), (s.emit x).outputText = s.outputText ++ x.text)

/-! ### Faults -/

/-- Every class check, reg1 before reg2 (40_step_cycle.md R116, 60_exceptions.md R212): the wrong class takes
OperandClassFault with the opcode, the field, the selector and the class required, before anything else. What is recorded
and kept, and ADDR and SUBR of one address register, are D6, D7 and D21 (log 6, log 7). -/
def Obligations.WrongOperandClassTakesItsFault : Prop :=
  ∀ (r q : Reg) (imm : Word) (s : State),
    (q.isData = true →
      exec (.loadi r q) s = .next (faultedAt s (.operandClass 0x61#8 .reg2 q.selector .address)) ∧
      exec (.storei r q) s = .next (faultedAt s (.operandClass 0x63#8 .reg2 q.selector .address)) ∧
      exec (.outi q) s = .next (faultedAt s (.operandClass 0x70#8 .reg1 q.selector .address)) ∧
      exec (.outic q) s = .next (faultedAt s (.operandClass 0x71#8 .reg1 q.selector .address))) ∧
    (r.isAddr = true →
      exec (.add r imm) s = .next (faultedAt s (.operandClass 0x68#8 .reg1 r.selector .data)) ∧
      exec (.addr r q) s = .next (faultedAt s (.operandClass 0x69#8 .reg1 r.selector .data)) ∧
      exec (.sub r imm) s = .next (faultedAt s (.operandClass 0x6A#8 .reg1 r.selector .data)) ∧
      exec (.subr r q) s = .next (faultedAt s (.operandClass 0x6B#8 .reg1 r.selector .data)) ∧
      exec (.outr r) s = .next (faultedAt s (.operandClass 0x6E#8 .reg1 r.selector .data)) ∧
      exec (.outrc r) s = .next (faultedAt s (.operandClass 0x6F#8 .reg1 r.selector .data))) ∧
    (r.isData = true → q.isAddr = true →
      exec (.addr r q) s = .next (faultedAt s (.operandClass 0x69#8 .reg2 q.selector .data)) ∧
      exec (.subr r q) s = .next (faultedAt s (.operandClass 0x6B#8 .reg2 q.selector .data)))

/-- From a Running state an OperandClassFault is taken by exactly the instructions that are not well formed, and no
instruction takes a DecodeFault (60_exceptions.md R212; which check wins is D5, log 6). -/
def Obligations.ClassFaultsAreTheIllFormedInstructions : Prop :=
  ∀ (i : Instr) (s : State), s.status = .running →
    ((∃ t record, exec i s = .next t ∧ t.status = .faulted record ∧ record.info.kind = .operandClass) ↔
      i.wellFormed = false) ∧
    ¬ ∃ t record, exec i s = .next t ∧ t.status = .faulted record ∧ record.info.kind = .decode

/-- The data access of a body at 32767 and above takes BoundsFault with the address given (60_exceptions.md R211,
41_load_store.md R141 to R143, 44_output.md R188, R189); what is recorded and kept is D6 and D7 (log 7). -/
def Obligations.DataAccessOutOfBoundsTakesItsFault : Prop :=
  ∀ (r q : Reg) (imm : Word) (s : State),
    (32767 ≤ imm.toNat → exec (.store r imm) s = .next (faultedAt s (.bounds imm .dataWrite .word))) ∧
    (q.isAddr = true → 32767 ≤ (s.reg q).toNat →
      exec (.loadi r q) s = .next (faultedAt s (.bounds (s.reg q) .dataRead .word)) ∧
      exec (.storei r q) s = .next (faultedAt s (.bounds (s.reg q) .dataWrite .word)) ∧
      exec (.outi q) s = .next (faultedAt s (.bounds (s.reg q) .dataRead .word)) ∧
      exec (.outic q) s = .next (faultedAt s (.bounds (s.reg q) .dataRead .word)))

/-- The faults of fetch and validate, in their order (40_step_cycle.md R112, R114, 60_exceptions.md R210, R217; the order,
the record and what is kept are D5, D6 and D7, log 6 and log 7). -/
def Obligations.FetchAndDecodeFaultsInTheirOrder : Prop :=
  ∀ s : State, s.status = .running →
    (32768 ≤ s.pc.toNat → step s = .next (faultedAt s (.bounds s.pc .fetchOpcode .byte))) ∧
    (s.pc.toNat = 32767 → step s = .next (faultedAt s (.bounds 32768#16 .fetchSelector .byte))) ∧
    (s.pc.toNat = 32765 ∨ s.pc.toNat = 32766 →
      opcodeAt s ∈ [0x60#8, 0x62#8, 0x64#8, 0x65#8, 0x66#8, 0x67#8, 0x68#8, 0x6A#8, 0x6C#8, 0x6D#8] →
      step s = .next (faultedAt s (.bounds (s.pc + 2#16) .fetchOperand .word))) ∧
    (s.pc.toNat ≤ 32766 → ¬ (opcodeAt s = 0x31#8 ∨ (0x60 ≤ (opcodeAt s).toNat ∧ (opcodeAt s).toNat ≤ 0x71)) →
      step s = .next (faultedAt s (.decode (opcodeAt s))))

/-- A step that ends Faulted has kept nothing, pc included: the state is the one before it but for the status, and the
record names the faulting instruction's address (60_exceptions.md R216, 40_step_cycle.md R117, D6, log 7). -/
def Obligations.FaultingStepKeepsNothing : Prop :=
  ∀ (s t : State) (record : FaultRecord), step s = .next t → t.status = .faulted record →
    t = { s with status := .faulted record } ∧ record.faultPc = s.pc

/-! ### The step -/

/-- When the bytes at pc are those of an instruction, a Running step is that instruction's meaning at that state; the
meaning advances pc itself (40_step_cycle.md R111, R115). -/
def Obligations.StepRunsTheDecodedInstruction : Prop :=
  ∀ (s : State) (bs : List Byte) (i : Instr), s.status = .running → HoldsBytes s.mem s.pc.toNat bs →
    decodeBytes bs = .ok (i, []) → step s = exec i s

/-- The shape of the model (00_scope.md R10): a Running step always ends in a next state, Halted exactly when the
instruction fetched is HALT, otherwise Running or Faulted; Halted and Faulted have no next state. -/
def Obligations.RunningStepsAlwaysEndInAState : Prop :=
  ∀ s : State,
    (s.status = .running → ∃ t, step s = .next t ∧ (t.status = .halted ↔ fetchInstr s.mem s.pc = .ok .halt)) ∧
    (s.status ≠ .running → ∀ t, step s ≠ .next t)

/-- Halted and Faulted are final (45_halt.md R201, 60_exceptions.md R218): however long it is given, the core changes
nothing. That `step` answers a fault outcome there is the model's choice (log 1). -/
def Obligations.StoppedCoreNeverMoves : Prop :=
  ∀ s : State,
    (s.status = .halted → step s = .fault .halted) ∧
    (∀ record, s.status = .faulted record → step s = .fault (.faulted record)) ∧
    (s.status ≠ .running → ∀ fuel, runFor fuel s = s)

/-- Every step keeps the invariant: memory inside the 32768 bytes (20_memory.md R50) and in the canonical form, which is
the model's own choice (log 3); Z and N never both 1 (10_state.md R27); a true fault record: fault_pc is pc, and the
report names the opcode byte, the selector or the access address of the instruction there (60_exceptions.md R210 to R213,
R216; D6, D7, log 7). -/
def Obligations.EveryStepKeepsInv : Prop :=
  ∀ s t : State, Inv s → step s = .next t → Inv t

/-- The state after reset satisfies the invariant (10_state.md R35; the canonical form of memory in it is
log 3, and that its status is Running is D18, log 12). -/
def Obligations.ResetStateHasInv : Prop := Inv State.reset

/-- Only STORE and STOREI change memory (20_memory.md R66). -/
def Obligations.OnlyStoresChangeMemory : Prop :=
  ∀ s t : State, step s = .next t → opcodeAt s ≠ 0x62#8 → opcodeAt s ≠ 0x63#8 → MemKept s t

/-- The trace only grows, by at most one transaction a step, and only by the six OUT opcodes (10_state.md R32,
44_output.md R180). -/
def Obligations.OnlyOutOpcodesAppendToTheTrace : Prop :=
  ∀ s t : State, step s = .next t →
    t.out = s.out ∨ ((0x6C ≤ (opcodeAt s).toNat ∧ (opcodeAt s).toNat ≤ 0x71) ∧ ∃ x, t.out = s.out ++ [x])

/-- Who writes the flags (40_step_cycle.md R120, 10_state.md R28): Z and N only the loads, the stores and the arithmetic
instructions; O only ADD, SUB and SUBR, and ADDR under the open switch (D9, log 2). -/
def Obligations.FlagsAreWrittenOnlyByTheirInstructions : Prop :=
  ∀ s t : State, step s = .next t →
    (opcodeAt s ∉ [0x60#8, 0x61#8, 0x62#8, 0x63#8, 0x68#8, 0x69#8, 0x6A#8, 0x6B#8] → t.z = s.z ∧ t.n = s.n) ∧
    (opcodeAt s ∉ [0x68#8, 0x69#8, 0x6A#8, 0x6B#8] → t.o = s.o) ∧
    (opcodeAt s = 0x69#8 → Config.addrWritesO = true ∨ t.o = s.o)

/-- Who writes the registers (10_state.md R23, R24): address registers only LOAD and LOADI, data registers only these and
the four arithmetic instructions. -/
def Obligations.RegistersAreWrittenOnlyByTheirInstructions : Prop :=
  ∀ s t : State, step s = .next t →
    (opcodeAt s ∉ [0x60#8, 0x61#8] → t.a1 = s.a1 ∧ t.a2 = s.a2) ∧
    (opcodeAt s ∉ [0x60#8, 0x61#8, 0x68#8, 0x69#8, 0x6A#8, 0x6B#8] → t.r1 = s.r1 ∧ t.r2 = s.r2)

/-- The advance (40_step_cycle.md R113, 10_state.md R25, R26): after a completed step that is no jump pc is pc0 plus the
instruction's length, without wrapping; after a jump it is pc0 + 4 or the operand's two bytes. HALT is among the completed
steps, and that its pc is pc0 + 2 is the spec's choice D16 (log 10). -/
def Obligations.CompletedStepsAdvanceThePc : Prop :=
  ∀ s t : State, step s = .next t → t.isFaulted = false →
    ((opcodeAt s).toNat < 0x64 ∨ 0x67 < (opcodeAt s).toNat → t.pc.toNat = s.pc.toNat +
      if opcodeAt s ∈ [0x60#8, 0x62#8, 0x68#8, 0x6A#8, 0x6C#8, 0x6D#8] then 4 else 2) ∧
    ((0x64 ≤ (opcodeAt s).toNat ∧ (opcodeAt s).toNat ≤ 0x67) →
      t.pc.toNat = s.pc.toNat + 4 ∨ IsWordAt s.mem (s.pc.toNat + 2) t.pc)

/-- A row's word placed where the next step fetches is the instruction the next step runs (30_encoding.md R91,
40_step_cycle.md R111): the model's own interface for one instruction (log 4). -/
def Obligations.PlacedWordIsWhatTheNextStepRuns : Prop :=
  ∀ (s : State) (nbits w : Nat) (i : Instr), s.pc.toNat ≤ 32764 → decodeTableWord nbits w = some i →
    step (s.withFetchWord nbits w) = exec i (s.withFetchWord nbits w)

/-- Code and data are one memory (20_memory.md R64, 10_state.md R34): the fetch reads the instruction whose bytes memory
holds at pc; a narrow instruction stored there as a word is the one fetched at once; and no byte but the four from pc up
matters to the fetch. -/
def Obligations.FetchSeesExactlyTheBytesAtThePc : Prop :=
  (∀ (m : Memory) (pc : Word) (bs : List Byte) (i : Instr), HoldsBytes m pc.toNat bs → decodeBytes bs = .ok (i, []) →
    fetchInstr m pc = .ok i) ∧
  (∀ (m m' : Memory) (pc v : Word) (i : Instr), writeWord m pc v = .ok m' →
    decodeBytes [lowByte v, highByte v] = .ok (i, []) → fetchInstr m' pc = .ok i) ∧
  (∀ (m m' : Memory) (pc : Word), (∀ k, k < 4 → m'.get (pc.toNat + k) = m.get (pc.toNat + k)) →
    fetchInstr m' pc = fetchInstr m pc)

/-! ### Reset, start-up, end -/

/-- Memory reset zeroes every location and leaves the processor; processor reset leaves memory (70_reset_and_hazards.md
R241). -/
def Obligations.MemoryAndProcessorResetAreSeparate : Prop :=
  ∀ s : State, (∀ a, s.memoryReset.mem.get a = 0x00#8) ∧ s.memoryReset = { s with mem := s.memoryReset.mem } ∧
    s.processorReset.mem = s.mem

/-- Processor reset gives every register, every flag and pc the value 0 (70_reset_and_hazards.md R240); Running and the
empty trace are the spec's own D18 (log 12). The model's reset state is both resets of any state. -/
def Obligations.ResetValuesAreZero : Prop :=
  ∀ s : State, (∀ r, s.processorReset.reg r = 0#16) ∧ s.processorReset.pc = 0#16 ∧ s.processorReset.z = false ∧
    s.processorReset.n = false ∧ s.processorReset.o = false ∧ s.processorReset.status = .running ∧
    s.processorReset.out = [] ∧ s.memoryReset.processorReset = State.reset

/-- The image (70_reset_and_hazards.md R244, 60_exceptions.md R214): a program of at most 32768 bytes starts the core in
the reset state but for memory, which holds the program from address 0 and zeros behind it; a longer one is a LoadFault
and starts nothing. The started state satisfies the invariant. That a program is an argument is D23 (log 4); that the
started state is Running with an empty trace is D18 (log 12); the canonical form of memory, which the invariant asks for,
is the model's own choice (log 3). -/
def Obligations.StartupLoadsTheProgramAtZero : Prop :=
  ∀ (s : State) (program : List Byte),
    (program.length ≤ 32768 → ∃ t, startup s program = .ok t ∧ t = { State.reset with mem := t.mem } ∧ Inv t ∧
      (∀ k (h : k < program.length), t.mem.get k = program[k]) ∧ (∀ k, program.length ≤ k → t.mem.get k = 0x00#8)) ∧
    (32768 < program.length → startup s program = .error .load)

/-- What a final status is to the surrounding software, and the numbers of the fault kinds (60_exceptions.md R215, R227;
the numbers are D14, log 13). -/
def Obligations.StatusesHaveTheirCodesAndExits : Prop :=
  ∀ s : State,
    (s.status = .running → s.processExit = none ∧ s.status.code = 0) ∧
    (s.status = .halted → s.processExit = some .zero ∧ s.status.code = 0) ∧
    (∀ record, s.status = .faulted record → s.processExit = some .nonZero ∧ s.status.code = record.info.kind.code ∧
      2 ≤ s.status.code ∧ s.status.code ≤ 4) ∧
    FaultKind.load.code = 1 ∧ FaultKind.decode.code = 2 ∧ FaultKind.bounds.code = 3 ∧ FaultKind.operandClass.code = 4

/-- How a process ends (60_exceptions.md R214, R227, 44_output.md R183). A program too long for memory ends it non-zero
with LoadFault reported and no output, however many steps are allowed. Otherwise it is what the core has come to: nothing
yet in Running; exit zero without a message in Halted; non-zero with the fault's kind and record named in Faulted; and in
both the output stream is the text of the trace. Exit zero is only that of a program that fits and has Halted. What the
message holds (the kind and the whole record, no record for a LoadFault, no message in Halted) is the model's own choice
(log 13); the fields of the record are the spec's choice D7 (log 7). -/
def Obligations.ProcessEndsByHaltFaultOrLoadFault : Prop :=
  ∀ (fuel : Nat) (s : State) (program : List Byte),
    (32768 < program.length → processRun fuel s program =
      some { exit := .nonZero, message := some { kind := .load, record := none }, stream := [] }) ∧
    (∀ t, startup s program = .ok t →
      ((runFor fuel t).status = .running → processRun fuel s program = none) ∧
      ((runFor fuel t).status = .halted → processRun fuel s program =
        some { exit := .zero, message := none, stream := (runFor fuel t).outputText }) ∧
      (∀ record, (runFor fuel t).status = .faulted record → processRun fuel s program =
        some { exit := .nonZero, message := some { kind := record.info.kind, record := some record },
               stream := (runFor fuel t).outputText })) ∧
    ((∃ e, processRun fuel s program = some e ∧ e.exit = .zero) ↔
      program.length ≤ 32768 ∧ ∃ t, startup s program = .ok t ∧ Succeeds fuel t)
end

