-- ==== Sys2Proof/Laws/Decode.lean ====
section
/-! SUPPORT. What the decoder can answer, said once. -/

namespace Sys2Proof

/-- Everything the decoder can answer: nothing for an opcode byte outside the valid set, otherwise an instruction with
that opcode byte. -/
theorem decodeFields_cases (opc selb : Byte) (imm : Word) :
    (isValid opc = false ∧ decodeFields opc selb imm = none) ∨
      (isValid opc = true ∧ ∃ i, decodeFields opc selb imm = some i ∧ i.opcode = opc) := by
  unfold decodeFields
  by_cases h0 : opc = 0x31#8
  · subst h0
    exact .inr ⟨rfl, _, rfl, rfl⟩
  dsimp only
  rw [if_neg h0]
  by_cases h1 : opc = 0x60#8
  · subst h1
    exact .inr ⟨rfl, _, rfl, rfl⟩
  rw [if_neg h1]
  by_cases h2 : opc = 0x61#8
  · subst h2
    exact .inr ⟨rfl, _, rfl, rfl⟩
  rw [if_neg h2]
  by_cases h3 : opc = 0x62#8
  · subst h3
    exact .inr ⟨rfl, _, rfl, rfl⟩
  rw [if_neg h3]
  by_cases h4 : opc = 0x63#8
  · subst h4
    exact .inr ⟨rfl, _, rfl, rfl⟩
  rw [if_neg h4]
  by_cases h5 : opc = 0x64#8
  · subst h5
    exact .inr ⟨rfl, _, rfl, rfl⟩
  rw [if_neg h5]
  by_cases h6 : opc = 0x65#8
  · subst h6
    exact .inr ⟨rfl, _, rfl, rfl⟩
  rw [if_neg h6]
  by_cases h7 : opc = 0x66#8
  · subst h7
    exact .inr ⟨rfl, _, rfl, rfl⟩
  rw [if_neg h7]
  by_cases h8 : opc = 0x67#8
  · subst h8
    exact .inr ⟨rfl, _, rfl, rfl⟩
  rw [if_neg h8]
  by_cases h9 : opc = 0x68#8
  · subst h9
    exact .inr ⟨rfl, _, rfl, rfl⟩
  rw [if_neg h9]
  by_cases h10 : opc = 0x69#8
  · subst h10
    exact .inr ⟨rfl, _, rfl, rfl⟩
  rw [if_neg h10]
  by_cases h11 : opc = 0x6A#8
  · subst h11
    exact .inr ⟨rfl, _, rfl, rfl⟩
  rw [if_neg h11]
  by_cases h12 : opc = 0x6B#8
  · subst h12
    exact .inr ⟨rfl, _, rfl, rfl⟩
  rw [if_neg h12]
  by_cases h13 : opc = 0x6C#8
  · subst h13
    exact .inr ⟨rfl, _, rfl, rfl⟩
  rw [if_neg h13]
  by_cases h14 : opc = 0x6D#8
  · subst h14
    exact .inr ⟨rfl, _, rfl, rfl⟩
  rw [if_neg h14]
  by_cases h15 : opc = 0x6E#8
  · subst h15
    exact .inr ⟨rfl, _, rfl, rfl⟩
  rw [if_neg h15]
  by_cases h16 : opc = 0x6F#8
  · subst h16
    exact .inr ⟨rfl, _, rfl, rfl⟩
  rw [if_neg h16]
  by_cases h17 : opc = 0x70#8
  · subst h17
    exact .inr ⟨rfl, _, rfl, rfl⟩
  rw [if_neg h17]
  by_cases h18 : opc = 0x71#8
  · subst h18
    exact .inr ⟨rfl, _, rfl, rfl⟩
  rw [if_neg h18]
  refine .inl ⟨?_, rfl⟩
  simp only [← BitVec.toNat_inj, BitVec.toNat_ofNat] at h0 h1 h2 h3 h4 h5 h6 h7 h8 h9 h10 h11 h12 h13 h14 h15 h16 h17 h18
  simp only [isValid, Bool.or_eq_false_iff, beq_eq_false_iff_ne, ne_eq, ← BitVec.toNat_inj, BitVec.toNat_ofNat,
    Bool.and_eq_false_iff, decide_eq_false_iff_not]
  omega

/-- A decoded instruction has the opcode byte it was decoded from. -/
theorem decodeFields_opcode {opc selb : Byte} {imm : Word} {i : Instr} (h : decodeFields opc selb imm = some i) :
    i.opcode = opc := by
  rcases decodeFields_cases opc selb imm with ⟨-, e⟩ | ⟨-, j, e, hj⟩ <;> rw [e] at h <;> cases h
  exact hj

/-- The fields of a decoded instruction are those it was decoded from (30_encoding.md R83, R85). -/
theorem decodeFields_fields {opc selb : Byte} {imm : Word} {i : Instr} (h : decodeFields opc selb imm = some i) :
    match i with
    | .halt => True
    | .jmp v | .jmpz v | .jmpn v | .jmpo v | .out v | .outc v => v = imm
    | .load r v | .store r v | .add r v | .sub r v => r = Reg.ofSelector (reg1Field selb) ∧ v = imm
    | .loadi r q | .storei r q | .addr r q | .subr r q =>
      r = Reg.ofSelector (reg1Field selb) ∧ q = Reg.ofSelector (reg2Field selb)
    | .outr r | .outrc r | .outi r | .outic r => r = Reg.ofSelector (reg1Field selb) := by
  have ho := decodeFields_opcode h
  subst ho
  cases i <;> simp [decodeFields, Instr.opcode] at h <;> simp_all

/-- Every wide opcode is a valid one (30_encoding.md R86, R89). -/
theorem isValid_of_isWide : ∀ opc : Byte, isWide opc = true → isValid opc = true := by decide

/-- The wide opcodes are those of the instructions with an operand. -/
theorem isWide_opcode (i : Instr) :
    isWide i.opcode = match i with
      | .load _ _ | .store _ _ | .jmp _ | .jmpz _ | .jmpn _ | .jmpo _ | .add _ _ | .sub _ _ | .out _ | .outc _ => true
      | .halt | .loadi _ _ | .storei _ _ | .addr _ _ | .subr _ _ | .outr _ | .outrc _ | .outi _ | .outic _ => false := by
  cases i <;> rfl

end Sys2Proof
end

