-- ==== Sys2Proof/Laws/Memory.lean ====
section
/-! SUPPORT. What the memory operations do, said once: a read after a write, the canonical form kept by each, and what
each checked access can answer. -/

namespace Sys2Proof

/-! ### Byte order -/

theorem toNat_joinBytes (lo hi : Byte) : (joinBytes lo hi).toNat = lo.toNat + 256 * hi.toNat := by
  have h1 := lo.isLt
  have h2 := hi.isLt
  rw [joinBytes, BitVec.toNat_ofNat]
  omega

theorem toNat_lowByte (v : Word) : (lowByte v).toNat = v.toNat % 256 := by
  simp [lowByte, BitVec.extractLsb'_toNat]

theorem toNat_highByte (v : Word) : (highByte v).toNat = v.toNat / 256 := by
  have h := v.isLt
  simp [highByte, BitVec.extractLsb'_toNat, Nat.shiftRight_eq_div_pow]
  omega

@[simp] theorem lowByte_joinBytes (lo hi : Byte) : lowByte (joinBytes lo hi) = lo := by
  have h := lo.isLt
  apply BitVec.eq_of_toNat_eq
  rw [toNat_lowByte, toNat_joinBytes]
  omega

@[simp] theorem highByte_joinBytes (lo hi : Byte) : highByte (joinBytes lo hi) = hi := by
  have h := lo.isLt
  apply BitVec.eq_of_toNat_eq
  rw [toNat_highByte, toNat_joinBytes]
  omega

@[simp] theorem joinBytes_low_high (v : Word) : joinBytes (lowByte v) (highByte v) = v := by
  apply BitVec.eq_of_toNat_eq
  rw [toNat_joinBytes, toNat_lowByte, toNat_highByte]
  omega

end Sys2Proof

namespace Sys2Proof.Machine

/-! ### Unchecked reads and writes -/

@[simp] theorem Memory.get_nil (a : Nat) : Memory.get [] a = Memory.unlisted := rfl

theorem Memory.get_insert (m : Memory) (a b : Nat) (v : Byte) :
    (Memory.insert m a v).get b = if a = b then v else m.get b := by
  induction m with
  | nil => simp [Memory.insert, Memory.get]
  | cons c m ih =>
    obtain ⟨k, w⟩ := c
    unfold Memory.insert
    split
    · simp [Memory.get]
    · split
      · subst_vars
        simp only [Memory.get]
        split <;> rfl
      · simp only [Memory.get, ih]
        split <;> split <;> simp_all

theorem Memory.get_filter (m : Memory) (a b : Nat) :
    Memory.get (m.filter (fun c => c.1 ≠ a)) b = if a = b then Memory.unlisted else m.get b := by
  induction m with
  | nil => simp [Memory.get]
  | cons c m ih =>
    obtain ⟨k, w⟩ := c
    by_cases hk : k = a
    · subst hk
      rw [List.filter_cons_of_neg (by simp), ih]
      by_cases hb : k = b <;> simp [Memory.get, hb]
    · rw [List.filter_cons_of_pos (by simpa using hk)]
      simp only [Memory.get, ih]
      by_cases hb : k = b
      · subst hb
        simp [Ne.symm hk]
      · simp [hb]

/-- A read after a write: the value written there, every other address unchanged (20_memory.md R65). -/
@[simp] theorem Memory.get_set (m : Memory) (a b : Nat) (v : Byte) :
    (m.set a v).get b = if a = b then v else m.get b := by
  unfold Memory.set
  split
  · rename_i h
    rw [Memory.get_filter, h]
  · exact Memory.get_insert m a b v

/-! ### The canonical form -/

theorem Memory.wf_nil : Memory.wf [] := by simp [Memory.wf]

theorem Memory.mem_insert {m : Memory} {a : Nat} {v : Byte} {c : Host.Cell} (h : c ∈ Memory.insert m a v) :
    c = (a, v) ∨ c ∈ m := by
  induction m with
  | nil => simpa [Memory.insert] using h
  | cons d m ih =>
    obtain ⟨k, w⟩ := d
    unfold Memory.insert at h
    split at h
    · simpa using h
    · split at h
      · rcases List.mem_cons.mp h with h | h
        · exact .inl h
        · exact .inr (List.mem_cons_of_mem _ h)
      · rcases List.mem_cons.mp h with h | h
        · exact .inr (h ▸ List.mem_cons_self ..)
        · exact (ih h).imp_right (List.mem_cons_of_mem _)

theorem Memory.sorted_insert {m : Memory} (a : Nat) (v : Byte) (h : m.Pairwise (fun c d => c.1 < d.1)) :
    (Memory.insert m a v).Pairwise (fun c d => c.1 < d.1) := by
  induction m with
  | nil => simp [Memory.insert]
  | cons c m ih =>
    obtain ⟨k, w⟩ := c
    obtain ⟨hk, hm⟩ := List.pairwise_cons.mp h
    unfold Memory.insert
    split
    · rename_i hlt
      refine List.pairwise_cons.mpr ⟨fun d hd => ?_, h⟩
      rcases List.mem_cons.mp hd with rfl | hd
      · exact hlt
      · exact Nat.lt_trans hlt (hk d hd)
    · split
      · subst_vars
        exact List.pairwise_cons.mpr ⟨hk, hm⟩
      · refine List.pairwise_cons.mpr ⟨fun d hd => ?_, ih hm⟩
        rcases Memory.mem_insert hd with rfl | hd
        · exact lt_of_le_of_ne (by dsimp only; omega) (fun e => by simp_all)
        · exact hk d hd

/-- Every write inside the array keeps the canonical form. -/
theorem Memory.wf_set {m : Memory} {a : Nat} (v : Byte) (ha : a < Config.memSize) (h : m.wf) : (m.set a v).wf := by
  unfold Memory.set
  split
  · exact ⟨h.1.filter _, fun c hc => h.2 c (List.mem_filter.mp hc).1⟩
  · rename_i hv
    refine ⟨Memory.sorted_insert a v h.1, fun c hc => ?_⟩
    rcases Memory.mem_insert hc with rfl | hc
    · exact ⟨ha, hv⟩
    · exact h.2 c hc

/-- Placing bytes keeps the canonical form, whatever they are and wherever they start. -/
theorem Memory.wf_place {m : Memory} (a : Nat) (bs : List Byte) (h : m.wf) : (m.place a bs).wf := by
  induction bs generalizing m a with
  | nil => exact h
  | cons b bs ih =>
    refine ih (a + 1) ?_
    split
    · exact Memory.wf_set b ‹_› h
    · exact h

/-- What the memory reads as after bytes are placed: the bytes where they fall inside the array, the old ones
elsewhere (70_reset_and_hazards.md R244). -/
theorem Memory.get_place (m : Memory) (a : Nat) (bs : List Byte) (b : Nat) :
    (m.place a bs).get b =
      if h : a ≤ b ∧ b - a < bs.length ∧ b < Config.memSize then bs[b - a]'h.2.1 else m.get b := by
  induction bs generalizing m a with
  | nil => simp [Memory.place]
  | cons x bs ih =>
    rw [Memory.place, ih]
    by_cases hab : a = b
    · subst hab
      by_cases hs : a < Config.memSize <;> simp [hs]
    · by_cases hlt : a < b
      · have e : b - a = (b - (a + 1)) + 1 := by omega
        have hget : Memory.get (if a < Config.memSize then m.set a x else m) b = m.get b := by
          split <;> simp [hab]
        by_cases hin : b - (a + 1) < bs.length ∧ b < Config.memSize
        · rw [dif_pos ⟨by omega, hin.1, hin.2⟩, dif_pos ⟨by omega, by simp; omega, hin.2⟩]
          simp only [e, List.getElem_cons_succ]
        · rw [dif_neg (fun h => hin h.2), dif_neg (fun h => hin ⟨by have := h.2.1; simp at this; omega, h.2.2⟩), hget]
      · rw [dif_neg (by omega), dif_neg (by omega)]
        split <;> simp [hab]

/-! ### The four access primitives: everything each can answer -/

theorem readByte_eq (k : Access) (m : Memory) (a : Word) :
    readByte k m a = if 32768 ≤ a.toNat then .error (.bounds a k .byte) else .ok (m.get a.toNat) := rfl

theorem readWord_eq (k : Access) (m : Memory) (a : Word) :
    readWord k m a = if 32767 ≤ a.toNat then .error (.bounds a k .word)
      else .ok (joinBytes (m.get a.toNat) (m.get (a.toNat + 1))) := rfl

theorem readByte_ok {k : Access} {m : Memory} {a : Word} {v : Byte} (h : readByte k m a = .ok v) :
    a.toNat < 32768 ∧ v = m.get a.toNat := by
  rw [readByte_eq] at h
  split at h
  · cases h
  · cases h
    exact ⟨by omega, rfl⟩

theorem readByte_error {k : Access} {m : Memory} {a : Word} {e : FaultInfo} (h : readByte k m a = .error e) :
    32768 ≤ a.toNat ∧ e = .bounds a k .byte := by
  rw [readByte_eq] at h
  split at h
  · cases h
    exact ⟨by omega, rfl⟩
  · cases h

theorem readWord_ok {k : Access} {m : Memory} {a v : Word} (h : readWord k m a = .ok v) :
    a.toNat < 32767 ∧ v = joinBytes (m.get a.toNat) (m.get (a.toNat + 1)) := by
  rw [readWord_eq] at h
  split at h
  · cases h
  · cases h
    exact ⟨by omega, rfl⟩

theorem readWord_error {k : Access} {m : Memory} {a : Word} {e : FaultInfo} (h : readWord k m a = .error e) :
    32767 ≤ a.toNat ∧ e = .bounds a k .word := by
  rw [readWord_eq] at h
  split at h
  · cases h
    exact ⟨by omega, rfl⟩
  · cases h

/-- Everything a byte write can do. -/
theorem writeByte_cases (m : Memory) (a v : Word) :
    (32768 ≤ a.toNat ∧ writeByte m a v = .error (.bounds a .dataWrite .byte)) ∨
      (a.toNat < 32768 ∧ writeByte m a v = .ok (m.set a.toNat (lowByte v))) := by
  by_cases h : 32768 ≤ a.toNat
  · exact .inl ⟨h, if_pos h⟩
  · exact .inr ⟨by omega, if_neg h⟩

/-- Everything a word write can do. -/
theorem writeWord_cases (m : Memory) (a v : Word) :
    (32767 ≤ a.toNat ∧ writeWord m a v = .error (.bounds a .dataWrite .word)) ∨
      (a.toNat < 32767 ∧ writeWord m a v = .ok ((m.set a.toNat (lowByte v)).set (a.toNat + 1) (highByte v))) := by
  by_cases h : 32767 ≤ a.toNat
  · exact .inl ⟨h, if_pos h⟩
  · exact .inr ⟨by omega, if_neg h⟩

/-- A byte write that succeeds keeps the canonical form. -/
theorem writeByte_wf {m m' : Memory} {a v : Word} (h : writeByte m a v = .ok m') (hm : m.wf) : m'.wf := by
  rcases writeByte_cases m a v with ⟨-, e⟩ | ⟨ha, e⟩ <;> rw [e] at h <;> cases h
  exact Memory.wf_set _ ha hm

/-- A word write that succeeds keeps the canonical form. -/
theorem writeWord_wf {m m' : Memory} {a v : Word} (h : writeWord m a v = .ok m') (hm : m.wf) : m'.wf := by
  rcases writeWord_cases m a v with ⟨-, e⟩ | ⟨ha, e⟩ <;> rw [e] at h <;> cases h
  exact Memory.wf_set _ (by simp only [Config.memSize]; omega) (Memory.wf_set _ (by simp only [Config.memSize]; omega) hm)

end Sys2Proof.Machine
end

