-- ==== Sys2Proof/Laws/State.lean ====
section
/-! SUPPORT. One lemma per field per update of the state, so that no proof unfolds a record update, and the read of a
register after each update. -/

namespace Sys2Proof.Machine

variable (s : State)

/-! ### setZN -/

@[simp] theorem State.setZN_r1 (v : Word) : (s.setZN v).r1 = s.r1 := rfl
@[simp] theorem State.setZN_r2 (v : Word) : (s.setZN v).r2 = s.r2 := rfl
@[simp] theorem State.setZN_a1 (v : Word) : (s.setZN v).a1 = s.a1 := rfl
@[simp] theorem State.setZN_a2 (v : Word) : (s.setZN v).a2 = s.a2 := rfl
@[simp] theorem State.setZN_pc (v : Word) : (s.setZN v).pc = s.pc := rfl
@[simp] theorem State.setZN_z (v : Word) : (s.setZN v).z = (v == 0#16) := rfl
@[simp] theorem State.setZN_n (v : Word) : (s.setZN v).n = v.msb := rfl
@[simp] theorem State.setZN_o (v : Word) : (s.setZN v).o = s.o := rfl
@[simp] theorem State.setZN_mem (v : Word) : (s.setZN v).mem = s.mem := rfl
@[simp] theorem State.setZN_status (v : Word) : (s.setZN v).status = s.status := rfl
@[simp] theorem State.setZN_out (v : Word) : (s.setZN v).out = s.out := rfl
@[simp] theorem State.setZN_reg (v : Word) (q : Reg) : (s.setZN v).reg q = s.reg q := by cases q <;> rfl

/-! ### setO -/

@[simp] theorem State.setO_r1 (b : Bool) : (s.setO b).r1 = s.r1 := rfl
@[simp] theorem State.setO_r2 (b : Bool) : (s.setO b).r2 = s.r2 := rfl
@[simp] theorem State.setO_a1 (b : Bool) : (s.setO b).a1 = s.a1 := rfl
@[simp] theorem State.setO_a2 (b : Bool) : (s.setO b).a2 = s.a2 := rfl
@[simp] theorem State.setO_pc (b : Bool) : (s.setO b).pc = s.pc := rfl
@[simp] theorem State.setO_z (b : Bool) : (s.setO b).z = s.z := rfl
@[simp] theorem State.setO_n (b : Bool) : (s.setO b).n = s.n := rfl
@[simp] theorem State.setO_o (b : Bool) : (s.setO b).o = b := rfl
@[simp] theorem State.setO_mem (b : Bool) : (s.setO b).mem = s.mem := rfl
@[simp] theorem State.setO_status (b : Bool) : (s.setO b).status = s.status := rfl
@[simp] theorem State.setO_out (b : Bool) : (s.setO b).out = s.out := rfl
@[simp] theorem State.setO_reg (b : Bool) (q : Reg) : (s.setO b).reg q = s.reg q := by cases q <;> rfl

/-! ### advanceNarrow -/

@[simp] theorem State.advanceNarrow_r1 : s.advanceNarrow.r1 = s.r1 := rfl
@[simp] theorem State.advanceNarrow_r2 : s.advanceNarrow.r2 = s.r2 := rfl
@[simp] theorem State.advanceNarrow_a1 : s.advanceNarrow.a1 = s.a1 := rfl
@[simp] theorem State.advanceNarrow_a2 : s.advanceNarrow.a2 = s.a2 := rfl
@[simp] theorem State.advanceNarrow_pc : s.advanceNarrow.pc = s.pc + 2#16 := rfl
@[simp] theorem State.advanceNarrow_z : s.advanceNarrow.z = s.z := rfl
@[simp] theorem State.advanceNarrow_n : s.advanceNarrow.n = s.n := rfl
@[simp] theorem State.advanceNarrow_o : s.advanceNarrow.o = s.o := rfl
@[simp] theorem State.advanceNarrow_mem : s.advanceNarrow.mem = s.mem := rfl
@[simp] theorem State.advanceNarrow_status : s.advanceNarrow.status = s.status := rfl
@[simp] theorem State.advanceNarrow_out : s.advanceNarrow.out = s.out := rfl
@[simp] theorem State.advanceNarrow_reg (q : Reg) : s.advanceNarrow.reg q = s.reg q := by cases q <;> rfl

/-! ### advanceWide -/

@[simp] theorem State.advanceWide_r1 : s.advanceWide.r1 = s.r1 := rfl
@[simp] theorem State.advanceWide_r2 : s.advanceWide.r2 = s.r2 := rfl
@[simp] theorem State.advanceWide_a1 : s.advanceWide.a1 = s.a1 := rfl
@[simp] theorem State.advanceWide_a2 : s.advanceWide.a2 = s.a2 := rfl
@[simp] theorem State.advanceWide_pc : s.advanceWide.pc = s.pc + 4#16 := rfl
@[simp] theorem State.advanceWide_z : s.advanceWide.z = s.z := rfl
@[simp] theorem State.advanceWide_n : s.advanceWide.n = s.n := rfl
@[simp] theorem State.advanceWide_o : s.advanceWide.o = s.o := rfl
@[simp] theorem State.advanceWide_mem : s.advanceWide.mem = s.mem := rfl
@[simp] theorem State.advanceWide_status : s.advanceWide.status = s.status := rfl
@[simp] theorem State.advanceWide_out : s.advanceWide.out = s.out := rfl
@[simp] theorem State.advanceWide_reg (q : Reg) : s.advanceWide.reg q = s.reg q := by cases q <;> rfl

/-! ### jump -/

@[simp] theorem State.jump_r1 (t : Word) : (s.jump t).r1 = s.r1 := rfl
@[simp] theorem State.jump_r2 (t : Word) : (s.jump t).r2 = s.r2 := rfl
@[simp] theorem State.jump_a1 (t : Word) : (s.jump t).a1 = s.a1 := rfl
@[simp] theorem State.jump_a2 (t : Word) : (s.jump t).a2 = s.a2 := rfl
@[simp] theorem State.jump_pc (t : Word) : (s.jump t).pc = t := rfl
@[simp] theorem State.jump_z (t : Word) : (s.jump t).z = s.z := rfl
@[simp] theorem State.jump_n (t : Word) : (s.jump t).n = s.n := rfl
@[simp] theorem State.jump_o (t : Word) : (s.jump t).o = s.o := rfl
@[simp] theorem State.jump_mem (t : Word) : (s.jump t).mem = s.mem := rfl
@[simp] theorem State.jump_status (t : Word) : (s.jump t).status = s.status := rfl
@[simp] theorem State.jump_out (t : Word) : (s.jump t).out = s.out := rfl
@[simp] theorem State.jump_reg (t : Word) (q : Reg) : (s.jump t).reg q = s.reg q := by cases q <;> rfl

/-! ### withMem -/

@[simp] theorem State.withMem_r1 (m : Memory) : (s.withMem m).r1 = s.r1 := rfl
@[simp] theorem State.withMem_r2 (m : Memory) : (s.withMem m).r2 = s.r2 := rfl
@[simp] theorem State.withMem_a1 (m : Memory) : (s.withMem m).a1 = s.a1 := rfl
@[simp] theorem State.withMem_a2 (m : Memory) : (s.withMem m).a2 = s.a2 := rfl
@[simp] theorem State.withMem_pc (m : Memory) : (s.withMem m).pc = s.pc := rfl
@[simp] theorem State.withMem_z (m : Memory) : (s.withMem m).z = s.z := rfl
@[simp] theorem State.withMem_n (m : Memory) : (s.withMem m).n = s.n := rfl
@[simp] theorem State.withMem_o (m : Memory) : (s.withMem m).o = s.o := rfl
@[simp] theorem State.withMem_mem (m : Memory) : (s.withMem m).mem = m := rfl
@[simp] theorem State.withMem_status (m : Memory) : (s.withMem m).status = s.status := rfl
@[simp] theorem State.withMem_out (m : Memory) : (s.withMem m).out = s.out := rfl
@[simp] theorem State.withMem_reg (m : Memory) (q : Reg) : (s.withMem m).reg q = s.reg q := by cases q <;> rfl

/-! ### emit -/

@[simp] theorem State.emit_r1 (x : Output) : (s.emit x).r1 = s.r1 := rfl
@[simp] theorem State.emit_r2 (x : Output) : (s.emit x).r2 = s.r2 := rfl
@[simp] theorem State.emit_a1 (x : Output) : (s.emit x).a1 = s.a1 := rfl
@[simp] theorem State.emit_a2 (x : Output) : (s.emit x).a2 = s.a2 := rfl
@[simp] theorem State.emit_pc (x : Output) : (s.emit x).pc = s.pc := rfl
@[simp] theorem State.emit_z (x : Output) : (s.emit x).z = s.z := rfl
@[simp] theorem State.emit_n (x : Output) : (s.emit x).n = s.n := rfl
@[simp] theorem State.emit_o (x : Output) : (s.emit x).o = s.o := rfl
@[simp] theorem State.emit_mem (x : Output) : (s.emit x).mem = s.mem := rfl
@[simp] theorem State.emit_status (x : Output) : (s.emit x).status = s.status := rfl
@[simp] theorem State.emit_out (x : Output) : (s.emit x).out = s.out ++ [x] := rfl
@[simp] theorem State.emit_reg (x : Output) (q : Reg) : (s.emit x).reg q = s.reg q := by cases q <;> rfl

/-! ### halt -/

@[simp] theorem State.halt_r1 : s.halt.r1 = s.r1 := rfl
@[simp] theorem State.halt_r2 : s.halt.r2 = s.r2 := rfl
@[simp] theorem State.halt_a1 : s.halt.a1 = s.a1 := rfl
@[simp] theorem State.halt_a2 : s.halt.a2 = s.a2 := rfl
@[simp] theorem State.halt_pc : s.halt.pc = s.pc := rfl
@[simp] theorem State.halt_z : s.halt.z = s.z := rfl
@[simp] theorem State.halt_n : s.halt.n = s.n := rfl
@[simp] theorem State.halt_o : s.halt.o = s.o := rfl
@[simp] theorem State.halt_mem : s.halt.mem = s.mem := rfl
@[simp] theorem State.halt_status : s.halt.status = .halted := rfl
@[simp] theorem State.halt_out : s.halt.out = s.out := rfl
@[simp] theorem State.halt_reg (q : Reg) : s.halt.reg q = s.reg q := by cases q <;> rfl

/-! ### takeFault -/

@[simp] theorem State.takeFault_r1 (e : FaultInfo) : (s.takeFault e).r1 = s.r1 := rfl
@[simp] theorem State.takeFault_r2 (e : FaultInfo) : (s.takeFault e).r2 = s.r2 := rfl
@[simp] theorem State.takeFault_a1 (e : FaultInfo) : (s.takeFault e).a1 = s.a1 := rfl
@[simp] theorem State.takeFault_a2 (e : FaultInfo) : (s.takeFault e).a2 = s.a2 := rfl
@[simp] theorem State.takeFault_pc (e : FaultInfo) : (s.takeFault e).pc = s.pc := rfl
@[simp] theorem State.takeFault_z (e : FaultInfo) : (s.takeFault e).z = s.z := rfl
@[simp] theorem State.takeFault_n (e : FaultInfo) : (s.takeFault e).n = s.n := rfl
@[simp] theorem State.takeFault_o (e : FaultInfo) : (s.takeFault e).o = s.o := rfl
@[simp] theorem State.takeFault_mem (e : FaultInfo) : (s.takeFault e).mem = s.mem := rfl
@[simp] theorem State.takeFault_status (e : FaultInfo) : (s.takeFault e).status = .faulted { faultPc := s.pc, info := e } := rfl
@[simp] theorem State.takeFault_out (e : FaultInfo) : (s.takeFault e).out = s.out := rfl
@[simp] theorem State.takeFault_reg (e : FaultInfo) (q : Reg) : (s.takeFault e).reg q = s.reg q := by cases q <;> rfl

/-! ### setReg -/

@[simp] theorem State.setReg_pc (r : Reg) (v : Word) : (s.setReg r v).pc = s.pc := by cases r <;> rfl
@[simp] theorem State.setReg_z (r : Reg) (v : Word) : (s.setReg r v).z = s.z := by cases r <;> rfl
@[simp] theorem State.setReg_n (r : Reg) (v : Word) : (s.setReg r v).n = s.n := by cases r <;> rfl
@[simp] theorem State.setReg_o (r : Reg) (v : Word) : (s.setReg r v).o = s.o := by cases r <;> rfl
@[simp] theorem State.setReg_mem (r : Reg) (v : Word) : (s.setReg r v).mem = s.mem := by cases r <;> rfl
@[simp] theorem State.setReg_status (r : Reg) (v : Word) : (s.setReg r v).status = s.status := by cases r <;> rfl
@[simp] theorem State.setReg_out (r : Reg) (v : Word) : (s.setReg r v).out = s.out := by cases r <;> rfl

/-- The register written reads as the value written; every other one is unchanged (10_state.md R37). -/
@[simp] theorem State.setReg_reg (r q : Reg) (v : Word) : (s.setReg r v).reg q = if q = r then v else s.reg q := by
  cases r <;> cases q <;> rfl

/-! ### The registers by name -/

@[simp] theorem State.reg_r1 : s.reg .r1 = s.r1 := rfl
@[simp] theorem State.reg_r2 : s.reg .r2 = s.r2 := rfl
@[simp] theorem State.reg_a1 : s.reg .a1 = s.a1 := rfl
@[simp] theorem State.reg_a2 : s.reg .a2 = s.a2 := rfl

/-! ### writeResult -/

@[simp] theorem writeResult_pc (r : Reg) (v : Word) (b : Bool) : (writeResult s r v b).pc = s.pc := by
  simp [writeResult]
@[simp] theorem writeResult_z (r : Reg) (v : Word) (b : Bool) : (writeResult s r v b).z = (v == 0#16) := by
  simp [writeResult]
@[simp] theorem writeResult_n (r : Reg) (v : Word) (b : Bool) : (writeResult s r v b).n = v.msb := by
  simp [writeResult]
@[simp] theorem writeResult_o (r : Reg) (v : Word) (b : Bool) : (writeResult s r v b).o = b := by
  simp [writeResult]
@[simp] theorem writeResult_mem (r : Reg) (v : Word) (b : Bool) : (writeResult s r v b).mem = s.mem := by
  simp [writeResult]
@[simp] theorem writeResult_status (r : Reg) (v : Word) (b : Bool) : (writeResult s r v b).status = s.status := by
  simp [writeResult]
@[simp] theorem writeResult_out (r : Reg) (v : Word) (b : Bool) : (writeResult s r v b).out = s.out := by
  simp [writeResult]

@[simp] theorem writeResult_reg (r q : Reg) (v : Word) (b : Bool) :
    (writeResult s r v b).reg q = if q = r then v else s.reg q := by
  simp [writeResult]

/-! ### reset -/

@[simp] theorem State.reset_r1 : State.reset.r1 = 0x0000#16 := rfl
@[simp] theorem State.reset_r2 : State.reset.r2 = 0x0000#16 := rfl
@[simp] theorem State.reset_a1 : State.reset.a1 = 0x0000#16 := rfl
@[simp] theorem State.reset_a2 : State.reset.a2 = 0x0000#16 := rfl
@[simp] theorem State.reset_pc : State.reset.pc = 0x0000#16 := rfl
@[simp] theorem State.reset_z : State.reset.z = false := rfl
@[simp] theorem State.reset_n : State.reset.n = false := rfl
@[simp] theorem State.reset_o : State.reset.o = false := rfl
@[simp] theorem State.reset_mem : State.reset.mem = [] := rfl
@[simp] theorem State.reset_status : State.reset.status = .running := rfl
@[simp] theorem State.reset_out : State.reset.out = [] := rfl

/-- Two states with the same eleven parts are the same state. -/
theorem State.ext_parts {s t : State} (hreg : ∀ r, s.reg r = t.reg r) (hpc : s.pc = t.pc) (hz : s.z = t.z)
    (hn : s.n = t.n) (ho : s.o = t.o) (hmem : s.mem = t.mem) (hstatus : s.status = t.status) (hout : s.out = t.out) :
    s = t := by
  have h1 := hreg .r1
  have h2 := hreg .r2
  have h3 := hreg .a1
  have h4 := hreg .a2
  cases s
  cases t
  simp_all

end Sys2Proof.Machine
end

