-- ==== Sys2Proof/Laws/Ops.lean ====
section
/-! SUPPORT. One lemma for each shared operation that says everything it can do: the class checks, the store with its
read-back, the end of a step, the jump, the fetch, the step. -/

namespace Sys2Proof.Machine

/-! ### The body of an instruction as a computation that may raise -/

@[simp] theorem bind_ok {α β : Type} (a : α) (f : α → Except FaultInfo β) : (Except.ok a >>= f) = f a := rfl

@[simp] theorem bind_error {α β : Type} (e : FaultInfo) (f : α → Except FaultInfo β) :
    ((Except.error e : Except FaultInfo α) >>= f) = .error e := rfl

@[simp] theorem pure_ok {α : Type} (a : α) : (pure a : Except FaultInfo α) = .ok a := rfl

@[simp] theorem State.conclude_ok (s t : State) : s.conclude (.ok t) = .next t := rfl

@[simp] theorem State.conclude_error (s : State) (e : FaultInfo) : s.conclude (.error e) = .next (s.takeFault e) := rfl

/-- The end of a step is always a next state: the body's, or the entry of its fault. -/
theorem State.conclude_cases (s : State) (r : Except FaultInfo State) :
    (∃ t, r = .ok t ∧ s.conclude r = .next t) ∨ (∃ e, r = .error e ∧ s.conclude r = .next (s.takeFault e)) := by
  cases r with
  | ok t => exact .inl ⟨t, rfl, rfl⟩
  | error e => exact .inr ⟨e, rfl, rfl⟩

/-! ### Class checks -/

theorem requireClass_pos {c : RegClass} {r : Reg} (opc : Byte) (f : Field) (h : r.cls = c) :
    requireClass c opc f r = .ok () := if_pos h

theorem requireClass_neg {c : RegClass} {r : Reg} (opc : Byte) (f : Field) (h : r.cls ≠ c) :
    requireClass c opc f r = .error (.operandClass opc f r.selector c) := if_neg h

/-- A data register passes the data check, an address register raises OperandClassFault (40_step_cycle.md R116). -/
theorem requireData_eq (opc : Byte) (f : Field) (r : Reg) :
    requireData opc f r = if r.isData then .ok () else .error (.operandClass opc f r.selector .data) := by
  cases r <;> rfl

/-- An address register passes the address check, a data register raises OperandClassFault (40_step_cycle.md R116). -/
theorem requireAddr_eq (opc : Byte) (f : Field) (r : Reg) :
    requireAddr opc f r = if r.isAddr then .ok () else .error (.operandClass opc f r.selector .address) := by
  cases r <;> rfl

theorem isAddr_eq_not_isData (r : Reg) : r.isAddr = !r.isData := by cases r <;> rfl

@[simp] theorem ofSelector_selector (r : Reg) : Reg.ofSelector r.selector = r := by cases r <;> rfl

@[simp] theorem selector_ofSelector (sel : BitVec 2) : (Reg.ofSelector sel).selector = sel := by
  revert sel
  decide

/-! ### Store and read back -/

/-- The word read back after a store is the word stored (20_memory.md R65, 90_conflicts.md C10). -/
theorem storeAndReadBack_eq (s : State) (a v : Word) :
    storeAndReadBack s a v =
      if 32767 ≤ a.toNat then .error (.bounds a .dataWrite .word)
      else .ok ((s.withMem ((s.mem.set a.toNat (lowByte v)).set (a.toNat + 1) (highByte v))).setZN v) := by
  unfold storeAndReadBack
  rcases writeWord_cases s.mem a v with ⟨h, e⟩ | ⟨h, e⟩
  · rw [e, if_pos h]
    rfl
  · rw [e, if_neg (by omega), bind_ok, readWord_eq, if_neg (by omega), bind_ok]
    simp

/-! ### Jumps -/

theorem jumpIf_eq (b : Bool) (t : Word) (s : State) :
    jumpIf b t s = { s with pc := if b then t else s.pc + 4#16 } := by
  cases b <;> rfl

/-! ### Fetch -/

/-- Everything the fetch can do (40_step_cycle.md R112). -/
theorem fetch_cases (m : Memory) (pc : Word) :
    (32768 ≤ pc.toNat ∧ fetch m pc = .error (.bounds pc .fetchOpcode .byte)) ∨
    (pc.toNat = 32767 ∧ fetch m pc = .error (.bounds 32768#16 .fetchSelector .byte)) ∨
    (pc.toNat < 32767 ∧ isWide (m.get pc.toNat) = true ∧ 32765 ≤ pc.toNat ∧
      fetch m pc = .error (.bounds (pc + 2#16) .fetchOperand .word)) ∨
    (pc.toNat < 32765 ∧ isWide (m.get pc.toNat) = true ∧
      fetch m pc = .ok { opc := m.get pc.toNat, selb := m.get (pc.toNat + 1), imm := joinBytes (m.get (pc.toNat + 2)) (m.get (pc.toNat + 3)) }) ∨
    (pc.toNat < 32767 ∧ isWide (m.get pc.toNat) = false ∧
      fetch m pc = .ok { opc := m.get pc.toNat, selb := m.get (pc.toNat + 1), imm := 0#16 }) := by
  unfold fetch
  by_cases h0 : 32768 ≤ pc.toNat
  · exact .inl ⟨h0, by rw [readByte_eq, if_pos h0]; rfl⟩
  by_cases h1 : pc.toNat = 32767
  · have hp : pc = 32767#16 := by bv_omega
    subst hp
    exact .inr (.inl ⟨rfl, rfl⟩)
  have e1 : (pc + 1#16).toNat = pc.toNat + 1 := by bv_omega
  have e2 : (pc + 2#16).toNat = pc.toNat + 2 := by bv_omega
  rw [readByte_eq, if_neg h0, bind_ok, readByte_eq, if_neg (by omega), bind_ok, e1]
  cases hw : isWide (m.get pc.toNat) with
  | false => exact .inr (.inr (.inr (.inr ⟨by omega, rfl, by simp⟩)))
  | true =>
    by_cases h2 : 32765 ≤ pc.toNat
    · exact .inr (.inr (.inl ⟨by omega, rfl, h2, by rw [if_pos rfl, readWord_eq, if_pos (by omega)]; rfl⟩))
    · exact .inr (.inr (.inr (.inl ⟨by omega, rfl, by rw [if_pos rfl, readWord_eq, if_neg (by omega), e2]; rfl⟩)))

/-- Fetch and validate: the fetch's fault, DecodeFault, or the instruction the fields name. -/
theorem fetchInstr_cases (m : Memory) (pc : Word) :
    (∃ e, fetch m pc = .error e ∧ fetchInstr m pc = .error e) ∨
    (∃ f, fetch m pc = .ok f ∧ decodeFields f.opc f.selb f.imm = none ∧ fetchInstr m pc = .error (.decode f.opc)) ∨
    (∃ f i, fetch m pc = .ok f ∧ decodeFields f.opc f.selb f.imm = some i ∧ fetchInstr m pc = .ok i) := by
  unfold fetchInstr
  cases hf : fetch m pc with
  | error e => exact .inl ⟨e, rfl, rfl⟩
  | ok f =>
    cases hd : decodeFields f.opc f.selb f.imm with
    | none => exact .inr (.inl ⟨f, rfl, hd, by rw [bind_ok, hd]⟩)
    | some i => exact .inr (.inr ⟨f, i, rfl, hd, by rw [bind_ok, hd]; rfl⟩)

/-- What is known of a fetched instruction: its bytes are inside memory, and it is what the decoder reads from the bytes
at pc, the operand of a wide one being the word there. -/
theorem fetchInstr_ok {m : Memory} {pc : Word} {i : Instr} (h : fetchInstr m pc = .ok i) :
    pc.toNat < 32767 ∧ ∃ imm, decodeFields (m.get pc.toNat) (m.get (pc.toNat + 1)) imm = some i ∧
      (isWide (m.get pc.toNat) = true →
        pc.toNat < 32765 ∧ imm = joinBytes (m.get (pc.toNat + 2)) (m.get (pc.toNat + 3))) := by
  rcases fetchInstr_cases m pc with ⟨e, -, e2⟩ | ⟨f, -, -, e2⟩ | ⟨f, j, hf, hd, e2⟩ <;> rw [h] at e2 <;> cases e2
  rcases fetch_cases m pc with ⟨-, e⟩ | ⟨-, e⟩ | ⟨-, -, -, e⟩ | ⟨hp, -, e⟩ | ⟨hp, hw, e⟩ <;> rw [hf] at e <;> cases e
  · exact ⟨by omega, _, hd, fun _ => ⟨hp, rfl⟩⟩
  · exact ⟨hp, _, hd, fun h' => by rw [hw] at h'; cases h'⟩

/-! ### The step -/

/-- A step that answers a next state was taken in Running, and is either the entry of a fetch or decode fault or the
meaning of the instruction fetched. -/
theorem step_cases {s t : State} (h : step s = .next t) :
    s.status = .running ∧
      ((∃ e, fetchInstr s.mem s.pc = .error e ∧ t = s.takeFault e) ∨
       (∃ i, fetchInstr s.mem s.pc = .ok i ∧ exec i s = .next t)) := by
  unfold step at h
  split at h
  · rename_i hs
    refine ⟨hs, ?_⟩
    split at h
    · rename_i i hi
      exact .inr ⟨i, hi, h⟩
    · rename_i e he
      cases h
      exact .inl ⟨e, he, rfl⟩
  · cases h
  · cases h

end Sys2Proof.Machine
end

