-- ==== Sys2Proof/Laws/PerInstr.lean ====
section
/-! SUPPORT. Families of statements made once per instruction, about the instruction as syntax. -/

namespace Sys2Proof.Laws

/-- The encoding begins with the instruction's opcode byte, a valid one, and is as long as the wide set says
(30_encoding.md R80, R86, R87, R89). -/
def EncodedForm.Statement (i : Instr) : Prop :=
  isValid i.opcode = true ∧ (encode i).head? = some i.opcode ∧
    (encode i).length = if isWide i.opcode then 4 else 2

theorem EncodedForm.halt : EncodedForm.Statement .halt := ⟨rfl, rfl, rfl⟩
theorem EncodedForm.load (reg1 : Reg) (imm : Word) : EncodedForm.Statement (.load reg1 imm) := ⟨rfl, rfl, rfl⟩
theorem EncodedForm.loadi (reg1 reg2 : Reg) : EncodedForm.Statement (.loadi reg1 reg2) := ⟨rfl, rfl, rfl⟩
theorem EncodedForm.store (reg1 : Reg) (imm : Word) : EncodedForm.Statement (.store reg1 imm) := ⟨rfl, rfl, rfl⟩
theorem EncodedForm.storei (reg1 reg2 : Reg) : EncodedForm.Statement (.storei reg1 reg2) := ⟨rfl, rfl, rfl⟩
theorem EncodedForm.jmp (imm : Word) : EncodedForm.Statement (.jmp imm) := ⟨rfl, rfl, rfl⟩
theorem EncodedForm.jmpz (imm : Word) : EncodedForm.Statement (.jmpz imm) := ⟨rfl, rfl, rfl⟩
theorem EncodedForm.jmpn (imm : Word) : EncodedForm.Statement (.jmpn imm) := ⟨rfl, rfl, rfl⟩
theorem EncodedForm.jmpo (imm : Word) : EncodedForm.Statement (.jmpo imm) := ⟨rfl, rfl, rfl⟩
theorem EncodedForm.add (reg1 : Reg) (imm : Word) : EncodedForm.Statement (.add reg1 imm) := ⟨rfl, rfl, rfl⟩
theorem EncodedForm.addr (reg1 reg2 : Reg) : EncodedForm.Statement (.addr reg1 reg2) := ⟨rfl, rfl, rfl⟩
theorem EncodedForm.sub (reg1 : Reg) (imm : Word) : EncodedForm.Statement (.sub reg1 imm) := ⟨rfl, rfl, rfl⟩
theorem EncodedForm.subr (reg1 reg2 : Reg) : EncodedForm.Statement (.subr reg1 reg2) := ⟨rfl, rfl, rfl⟩
theorem EncodedForm.out (imm : Word) : EncodedForm.Statement (.out imm) := ⟨rfl, rfl, rfl⟩
theorem EncodedForm.outc (imm : Word) : EncodedForm.Statement (.outc imm) := ⟨rfl, rfl, rfl⟩
theorem EncodedForm.outr (reg1 : Reg) : EncodedForm.Statement (.outr reg1) := ⟨rfl, rfl, rfl⟩
theorem EncodedForm.outrc (reg1 : Reg) : EncodedForm.Statement (.outrc reg1) := ⟨rfl, rfl, rfl⟩
theorem EncodedForm.outi (reg1 : Reg) : EncodedForm.Statement (.outi reg1) := ⟨rfl, rfl, rfl⟩
theorem EncodedForm.outic (reg1 : Reg) : EncodedForm.Statement (.outic reg1) := ⟨rfl, rfl, rfl⟩

end Sys2Proof.Laws
end

