-- ==== Sys2Proof/Laws/Startup.lean ====
section
/-! SUPPORT. What a load, the end of a process and a whole process run can answer, said once. -/

namespace Sys2Proof.Machine

/-- A load is a LoadFault exactly for a program longer than memory (60_exceptions.md R214). -/
theorem startup_cases (s : State) (program : List Byte) :
    (32768 < program.length ∧ startup s program = .error .load) ∨
      (program.length ≤ 32768 ∧
        startup s program = .ok { State.reset with mem := Memory.place [] 0 program }) := by
  unfold startup
  by_cases h : Config.memSize < program.length
  · exact .inl ⟨h, if_pos h⟩
  · exact .inr ⟨Nat.le_of_not_lt h, if_neg h⟩

/-- The end of a process by the final status (60_exceptions.md R227). -/
theorem State.processEnd_eq (s : State) :
    s.processEnd = match s.status with
      | .running => none
      | .halted => some { exit := .zero, message := none, stream := s.outputText }
      | .faulted record =>
        some { exit := .nonZero, message := some { kind := record.info.kind, record := some record },
               stream := s.outputText } := by
  unfold State.processEnd State.processExit State.errorMessage
  cases s.status <;> rfl

theorem processRun_of_startup_error {s : State} {program : List Byte} {kind : FaultKind} (fuel : Nat)
    (h : startup s program = .error kind) : processRun fuel s program = some (loadFaultEnd kind) := by
  unfold processRun
  rw [h]

theorem processRun_of_startup_ok {s t : State} {program : List Byte} (fuel : Nat) (h : startup s program = .ok t) :
    processRun fuel s program = (runFor fuel t).processEnd := by
  unfold processRun
  rw [h]

end Sys2Proof.Machine
end

