-- ==== Sys2Proof/Tests/Slice0.lean ====
section
/-! SUPPORT. Tests: expected values from spec/95_test_vectors.md (the section is named), bytes written out from
30_encoding.md; the smoke test of WellFormed; and for every statement with hypotheses a witness that meets them. -/

namespace Sys2Proof.Tests

open Sys2Proof.Machine Sys2Proof.Slice0

/-! ### WellFormed refuses an ill-formed term for each check (40_step_cycle.md R116) -/

theorem test_wellFormed_loadi : (Instr.loadi .r1 .r2).wellFormed = false := by decide
theorem test_wellFormed_storei : (Instr.storei .r1 .r1).wellFormed = false := by decide
theorem test_wellFormed_add : (Instr.add .a1 1#16).wellFormed = false := by decide
theorem test_wellFormed_sub : (Instr.sub .a2 1#16).wellFormed = false := by decide
theorem test_wellFormed_addr_reg1 : (Instr.addr .a1 .r1).wellFormed = false := by decide
theorem test_wellFormed_addr_reg2 : (Instr.addr .r1 .a2).wellFormed = false := by decide
theorem test_wellFormed_subr_reg1 : (Instr.subr .a2 .r1).wellFormed = false := by decide
theorem test_wellFormed_subr_reg2 : (Instr.subr .r1 .a1).wellFormed = false := by decide
theorem test_wellFormed_outr : (Instr.outr .a1).wellFormed = false := by decide
theorem test_wellFormed_outrc : (Instr.outrc .a2).wellFormed = false := by decide
theorem test_wellFormed_outi : (Instr.outi .r1).wellFormed = false := by decide
theorem test_wellFormed_outic : (Instr.outic .r2).wellFormed = false := by decide
theorem test_wellFormed_accepts : (Instr.storei .a1 .a1).wellFormed = true := by decide

/-! ### Decoding: one word of every row, numbered as the table numbers it (section 3.2) -/

theorem test_decode_halt : decodeTableWord 16 0xFF31 = some .halt := by decide
theorem test_decode_load : decodeTableWord 32 0x1234FD60 = some (.load .r1 0x1234#16) := by decide
theorem test_decode_loadi : decodeTableWord 16 0x8361 = some (.loadi .a1 .a2) := by decide
theorem test_decode_store : decodeTableWord 32 0x02000162 = some (.store .r1 0x0200#16) := by decide
theorem test_decode_storei : decodeTableWord 16 0x8063 = some (.storei .r2 .a2) := by decide
theorem test_decode_jmp : decodeTableWord 32 0xFFFFFF64 = some (.jmp 0xFFFF#16) := by decide
theorem test_decode_jmpz : decodeTableWord 32 0x00120065 = some (.jmpz 0x0012#16) := by decide
theorem test_decode_jmpn : decodeTableWord 32 0x01000066 = some (.jmpn 0x0100#16) := by decide
theorem test_decode_jmpo : decodeTableWord 32 0x00140067 = some (.jmpo 0x0014#16) := by decide
theorem test_decode_add : decodeTableWord 32 0x00010168 = some (.add .r1 0x0001#16) := by decide
theorem test_decode_addr : decodeTableWord 16 0x4069 = some (.addr .r2 .r1) := by decide
theorem test_decode_sub : decodeTableWord 32 0x0001006A = some (.sub .r2 0x0001#16) := by decide
theorem test_decode_subr : decodeTableWord 16 0x416B = some (.subr .r1 .r1) := by decide
theorem test_decode_out : decodeTableWord 32 0xFF9C006C = some (.out 0xFF9C#16) := by decide
theorem test_decode_outc : decodeTableWord 32 0x000A006D = some (.outc 0x000A#16) := by decide
theorem test_decode_outr : decodeTableWord 16 0x016E = some (.outr .r1) := by decide
theorem test_decode_outrc : decodeTableWord 16 0x006F = some (.outrc .r2) := by decide
theorem test_decode_outi : decodeTableWord 16 0x0270 = some (.outi .a2) := by decide
theorem test_decode_outic : decodeTableWord 16 0x0371 = some (.outic .a1) := by decide
theorem test_decode_invalid : [0x00, 0x30, 0x32, 0x5F, 0x72, 0x99, 0xFF].map (decodeTableWord 16) =
    [none, none, none, none, none, none, none] := by decide
theorem test_decode_bits_above_nbits_are_zero : decodeTableWord 16 0x12344160 = some (.load .r1 0x0000#16) := by decide
theorem test_decode_truncated : decodeBytes [0x60#8, 0x01#8, 0x34#8] = .error .truncated := rfl

/-- 30_encoding.md R94: `LOAD R1, 65`, `LOADI R2, (A1)`, `ADDR R1, R2`, `ADDR R2, R1`, `OUTI (A2)`, `HALT`. -/
theorem test_encode : [Instr.load .r1 65#16, .loadi .r2 .a1, .addr .r1 .r2, .addr .r2 .r1, .outi .a2, .halt].map encode =
    [[0x60#8, 0x01#8, 0x41#8, 0x00#8], [0x61#8, 0xC0#8], [0x69#8, 0x01#8], [0x69#8, 0x40#8], [0x70#8, 0x02#8],
      [0x31#8, 0x00#8]] := by decide

/-! ### Memory (section 3.1) -/

theorem test_word_is_little_endian :
    (writeWord [] 0x0100#16 0x1234#16).toOption = some [(0x0100, 0x34#8), (0x0101, 0x12#8)] := by decide
theorem test_read_across : (readWord .dataRead [(0x0100, 0x34#8), (0x0101, 0x12#8)] 0x00FF#16).toOption =
    some 0x3400#16 := by decide
theorem test_read_last_word : (readWord .dataRead [(32766, 0xCD#8), (32767, 0xAB#8)] 0x7FFE#16).toOption =
    some 0xABCD#16 := by decide
theorem test_write_byte_keeps_low_bits : (writeByte [] 0x0005#16 0x01FF#16).toOption = some [(5, 0xFF#8)] := by decide
theorem test_write_zero_unlists : (writeWord [(7, 0x11#8), (8, 0x22#8), (9, 0x33#8)] 7#16 0#16).toOption =
    some [(9, 0x33#8)] := by decide

/-! ### One step of each instruction (sections 3.3 to 3.8) -/

/-- The state after one step from `s`, with `bs` placed at pc. -/
def after (s : State) (bs : List Byte) : Option State :=
  match step { s with mem := s.mem.place s.pc.toNat bs } with
  | .next t => some t
  | .fault _ => none
  | .refused _ => none

/-- The status after one step. -/
def statusAfter (s : State) (bs : List Byte) : Option Status := (after s bs).map State.status

/-- pc and the three flags. -/
def pcFlags (t : State) : Word × Bool × Bool × Bool := (t.pc, t.z, t.n, t.o)

/-- reset with pc = 0x0010. -/
def at16 : State := { State.reset with pc := 0x0010#16 }

theorem test_load : (after { State.reset with o := true } [0x60#8, 0x00#8, 0x00#8, 0x80#8]).map
    (fun t => (t.r2, pcFlags t)) = some (0x8000#16, 0x0004#16, false, true, true) := by decide
theorem test_load_address_register : (after State.reset [0x60#8, 0x03#8, 0xFE#8, 0xFF#8]).map
    (fun t => (t.a1, t.a2, pcFlags t)) = some (0xFFFE#16, 0#16, 0x0004#16, false, true, false) := by decide
theorem test_loadi_into_its_own_address : (after { at16 with a1 := 0x0200#16, mem := [(0x0201, 0x03#8)] } [0x61#8, 0xC3#8]).map
    (fun t => (t.a1, pcFlags t)) = some (0x0300#16, 0x0012#16, false, false, false) := by decide
theorem test_loadi_out_of_bounds : statusAfter { at16 with a1 := 0x7FFF#16 } [0x61#8, 0xC1#8] =
    some (.faulted { faultPc := 0x0010#16, info := .bounds 0x7FFF#16 .dataRead .word }) := by decide
theorem test_store : (after { State.reset with r1 := 0xBEEF#16 } [0x62#8, 0x01#8, 0xFE#8, 0x7F#8]).map
    (fun t => (t.mem.get 32766, t.mem.get 32767, pcFlags t)) = some (0xEF#8, 0xBE#8, 0x0004#16, false, true, false) := by
  decide
theorem test_store_out_of_bounds : (after { State.reset with r1 := 0xBEEF#16, mem := [(32767, 0x77#8)] }
    [0x62#8, 0x01#8, 0xFF#8, 0x7F#8]).map (fun t => (t.mem.get 32767, pcFlags t, t.status)) =
    some (0x77#8, (0x0000#16, false, false, false),
      .faulted { faultPc := 0x0000#16, info := .bounds 0x7FFF#16 .dataWrite .word }) := by decide
theorem test_storei_zero : (after { at16 with a2 := 0x0300#16, n := true, mem := [(0x0300, 0xFF#8), (0x0301, 0xFF#8)] }
    [0x63#8, 0x80#8]).map (fun t => (t.mem.get 0x0300, t.mem.get 0x0301, pcFlags t)) =
    some (0x00#8, 0x00#8, 0x0012#16, true, false, false) := by decide
theorem test_storei_class : statusAfter { at16 with r1 := 5#16 } [0x63#8, 0x01#8] =
    some (.faulted { faultPc := 0x0010#16, info := .operandClass 0x63#8 .reg2 0#2 .address }) := by decide
theorem test_jmp : (after { State.reset with z := true, o := true } [0x64#8, 0xFF#8, 0xFF#8, 0xFF#8]).map pcFlags =
    some (0xFFFF#16, true, false, true) := by decide
theorem test_jmpz_at_reset_falls_through : (after State.reset [0x65#8, 0x00#8, 0x40#8, 0x00#8]).map State.pc =
    some 0x0004#16 := by decide
theorem test_jmpz_taken : (after { State.reset with pc := 0x000A#16, z := true } [0x65#8, 0x00#8, 0x12#8, 0x00#8]).map
    State.pc = some 0x0012#16 := by decide
theorem test_jmpn_taken : (after { State.reset with n := true } [0x66#8, 0x00#8, 0x00#8, 0x01#8]).map State.pc =
    some 0x0100#16 := by decide
theorem test_jmpn_not_taken : (after { State.reset with z := true, o := true } [0x66#8, 0x00#8, 0x00#8, 0x01#8]).map
    State.pc = some 0x0004#16 := by decide
theorem test_jmpo_taken : (after { State.reset with pc := 8#16, n := true, o := true } [0x67#8, 0x00#8, 0x14#8, 0x00#8]).map
    pcFlags = some (0x0014#16, false, true, true) := by decide
theorem test_jmpo_not_taken : (after { State.reset with pc := 8#16, z := true } [0x67#8, 0x00#8, 0x14#8, 0x00#8]).map
    State.pc = some 0x000C#16 := by decide
/-- The source's own property S4. -/
theorem test_add_overflows : (after { State.reset with r1 := 0x7FFF#16 } [0x68#8, 0x01#8, 0x01#8, 0x00#8]).map
    (fun t => (t.r1, pcFlags t)) = some (0x8000#16, 0x0004#16, false, true, true) := by decide
theorem test_add_clears_overflow : (after { State.reset with o := true } [0x68#8, 0x00#8, 0xFF#8, 0xFF#8]).map
    (fun t => (t.r2, pcFlags t)) = some (0xFFFF#16, 0x0004#16, false, true, false) := by decide
theorem test_addr : (after { State.reset with r1 := 0x0005#16, r2 := 0xFFFB#16 } [0x69#8, 0x01#8]).map
    (fun t => (t.r1, t.r2, t.pc, t.z, t.n)) = some (0x0000#16, 0xFFFB#16, 0x0002#16, true, false) := by decide
theorem test_addr_same_register : (after { State.reset with r1 := 7#16, z := true, n := true, o := true } [0x69#8, 0x41#8]).map
    (fun t => (t.r1, pcFlags t)) = some (0x0007#16, 0x0002#16, true, true, true) := by decide
theorem test_sub_overflows : (after State.reset [0x6A#8, 0x01#8, 0x00#8, 0x80#8]).map (fun t => (t.r1, pcFlags t)) =
    some (0x8000#16, 0x0004#16, false, true, true) := by decide
theorem test_sub_class : statusAfter State.reset [0x6A#8, 0x03#8, 0x01#8, 0x00#8] =
    some (.faulted { faultPc := 0#16, info := .operandClass 0x6A#8 .reg1 3#2 .data }) := by decide
theorem test_subr : (after { State.reset with r2 := 0x0064#16, r1 := 0x00C8#16, o := true } [0x6B#8, 0x40#8]).map
    (fun t => (t.r2, t.r1, pcFlags t)) = some (0xFF9C#16, 0x00C8#16, 0x0002#16, false, true, false) := by decide
theorem test_subr_class_reg1_first : statusAfter State.reset [0x6B#8, 0xC2#8] =
    some (.faulted { faultPc := 0#16, info := .operandClass 0x6B#8 .reg1 2#2 .data }) := by decide
theorem test_out : (after { State.reset with n := true } [0x6C#8, 0x00#8, 0x9C#8, 0xFF#8]).map
    (fun t => (t.out, t.outputText, pcFlags t)) =
    some ([.num 0xFF9C#16], [0x2D#8, 0x31#8, 0x30#8, 0x30#8], 0x0004#16, false, true, false) := by decide
theorem test_outc : (after { State.reset with out := [.char 1#8] } [0x6D#8, 0x00#8, 0x41#8, 0x01#8]).map State.out =
    some [.char 1#8, .char 0x41#8] := by decide
theorem test_outr : (after { State.reset with r1 := 0x8000#16 } [0x6E#8, 0x01#8]).map
    (fun t => (t.outputText, t.pc)) = some ([0x2D#8, 0x33#8, 0x32#8, 0x37#8, 0x36#8, 0x38#8], 0x0002#16) := by decide
theorem test_outrc : (after { State.reset with r2 := 0x1248#16 } [0x6F#8, 0x00#8]).map State.out =
    some [.char 0x48#8] := by decide
/-- Section 3.6: `OUTI (A1)` right after reset prints its own two bytes. -/
theorem test_outi : (after State.reset [0x70#8, 0x03#8]).map (fun t => (t.out, t.outputText, t.pc)) =
    some ([.num 0x0370#16], [0x38#8, 0x38#8, 0x30#8], 0x0002#16) := by decide
theorem test_outi_class : statusAfter at16 [0x70#8, 0x01#8] =
    some (.faulted { faultPc := 0x0010#16, info := .operandClass 0x70#8 .reg1 1#2 .address }) := by decide
theorem test_outic : (after { at16 with a1 := 0x7FFE#16, mem := [(32766, 0x5A#8), (32767, 0x01#8)] } [0x71#8, 0x03#8]).map
    State.out = some [.char 0x5A#8] := by decide
theorem test_outic_byte_exists_word_does_not : statusAfter { at16 with a1 := 0x7FFF#16, mem := [(32767, 0x5A#8)] }
    [0x71#8, 0x03#8] = some (.faulted { faultPc := 0x0010#16, info := .bounds 0x7FFF#16 .dataRead .word }) := by decide
theorem test_halt_in_the_last_two_bytes : (after { State.reset with pc := 0x7FFE#16 } [0x31#8, 0x00#8]).map
    (fun t => (t.status, t.pc)) = some (.halted, 0x8000#16) := by decide
theorem test_halt_in_the_last_byte : statusAfter { State.reset with pc := 0x7FFF#16 } [0x31#8] =
    some (.faulted { faultPc := 0x7FFF#16, info := .bounds 0x8000#16 .fetchSelector .byte }) := by decide

/-! ### Fetch, decode, start-up (sections 3.8 and 1) -/

/-- S9. -/
theorem test_invalid_opcode : statusAfter State.reset [0x99#8, 0x00#8] =
    some (.faulted { faultPc := 0#16, info := .decode 0x99#8 }) := by decide
theorem test_operand_half_outside : statusAfter { State.reset with pc := 0x7FFD#16 } [0x60#8, 0x01#8, 0x34#8] =
    some (.faulted { faultPc := 0x7FFD#16, info := .bounds 0x7FFF#16 .fetchOperand .word }) := by decide
/-- D5: the fetch comes before the class check. -/
theorem test_operand_outside_before_class : statusAfter { State.reset with pc := 0x7FFE#16 } [0x68#8, 0x03#8] =
    some (.faulted { faultPc := 0x7FFE#16, info := .bounds 0x8000#16 .fetchOperand .word }) := by decide
theorem test_wide_that_just_fits : (after { State.reset with pc := 0x7FFC#16 } [0x60#8, 0x01#8, 0x34#8, 0x12#8]).map
    (fun t => (t.r1, t.pc, t.status)) = some (0x1234#16, 0x8000#16, .running) := by decide
theorem test_empty_program : statusAfter State.reset [] = some (.faulted { faultPc := 0#16, info := .decode 0x00#8 }) := by
  decide
theorem test_startup_replaces_everything :
    (startup { State.reset with r1 := 5#16, mem := [(9, 1#8)], status := .halted } [0x31#8, 0x00#8, 0x07#8]).toOption =
      some { State.reset with mem := [(0, 0x31#8), (2, 0x07#8)] } := by decide
theorem test_withFetchWord : (State.reset.withFetchWord 16 0x0031).mem = [(0, 0x31#8)] := by decide

/-! ### Witnesses: concrete operands that meet the hypotheses of each statement, each clause at a boundary -/

theorem witness_ExactlyNineteenOpcodesDecode : { State.reset with pc := 32766#16 }.status = .running ∧
    { State.reset with pc := 32766#16 }.pc.toNat ≤ 32766 ∧
    ¬ (opcodeAt { State.reset with pc := 32766#16 } = 0x31#8 ∨ (0x60 ≤ (opcodeAt { State.reset with pc := 32766#16 }).toNat ∧
      (opcodeAt { State.reset with pc := 32766#16 }).toNat ≤ 0x71)) := by decide

theorem witness_ReservedBitsAndUnusedSelectorsAreIgnored : 0xFD#8 &&& 0xC3#8 = 0xC1#8 &&& 0xC3#8 ∧
    0x6D#8 ∈ [0x31#8, 0x64#8, 0x65#8, 0x66#8, 0x67#8, 0x6C#8, 0x6D#8] ∧
    0x71#8 ∈ [0x60#8, 0x62#8, 0x68#8, 0x6A#8, 0x6E#8, 0x6F#8, 0x70#8, 0x71#8] ∧ 0xFD#8 &&& 0x03#8 = 0x01#8 &&& 0x03#8 := by
  decide

theorem witness_DecodedLengthFollowsTheWideSet :
    decodeBytes [0x60#8, 0x01#8, 0x41#8, 0x00#8, 0x07#8] = .ok (.load .r1 0x0041#16, [0x07#8]) ∧
    decodeBytes [0x31#8, 0x00#8, 0x07#8] = .ok (.halt, [0x07#8]) := ⟨rfl, rfl⟩

theorem witness_ReadAfterWriteRoundTrips : (32767#16).toNat < 32768 ∧ (32766#16).toNat < 32767 := by decide

/-- For ReadsAreBoundedAndLittleEndian and WritesAreBoundedAndLittleEndian, each clause at its boundary. -/
theorem witness_boundary_addresses : 32768 ≤ (32768#16).toNat ∧ (32767#16).toNat < 32768 ∧ 32767 ≤ (32767#16).toNat ∧
    (32766#16).toNat < 32767 := by decide

theorem witness_CanonicalMemoriesReadingAlikeAreEqual : Memory.wf [(0, 1#8), (32767, 2#8)] ∧
    ∀ a, Memory.get [(0, 1#8), (32767, 2#8)] a = Memory.get [(0, 1#8), (32767, 2#8)] a := ⟨by decide, fun _ => rfl⟩

theorem witness_LoadiWritesTheWordAtItsAddress :
    Reg.a1.isAddr = true ∧ ({ State.reset with a1 := 32766#16 }.reg .a1).toNat < 32767 := by decide

theorem witness_StoreWritesOnlyTheWordAtItsOperand : (absoluteAddress 32766#16).toNat < 32767 := by decide

theorem witness_StoreiWritesOnlyTheWordAtItsAddress :
    Reg.a2.isAddr = true ∧ (indirectAddress { State.reset with a2 := 32766#16 } .a2).toNat < 32767 := by decide

/-- For AddWrapsAndAssignsOverflow, SubWrapsAndAssignsOverflow, AddrAndSubrOfOneRegisterDoNothing,
OutrAndOutrcEmitADataRegister. -/
theorem witness_one_data_register : Reg.r1.isData = true ∧ Reg.r2.isData = true := by decide

/-- For AddrWrapsWithOverflowLeftToTheSwitch and SubrWrapsAndAssignsOverflow. -/
theorem witness_two_data_registers : Reg.r1.isData = true ∧ Reg.r2.isData = true ∧ Reg.r1 ≠ Reg.r2 := by decide

theorem witness_OutiAndOuticEmitTheWordAtTheirAddress :
    Reg.a2.isAddr = true ∧ ({ State.reset with a2 := 32766#16 }.reg .a2).toNat < 32767 := by decide

theorem witness_WrongOperandClassTakesItsFault :
    Reg.r2.isData = true ∧ Reg.a1.isAddr = true ∧ (Reg.r1.isData = true ∧ Reg.a2.isAddr = true) := by decide

theorem witness_ClassFaultsAreTheIllFormedInstructions : State.reset.status = .running := by decide

theorem witness_DataAccessOutOfBoundsTakesItsFault : 32767 ≤ (32767#16).toNat ∧
    (Reg.a1.isAddr = true ∧ 32767 ≤ ({ State.reset with a1 := 32767#16 }.reg .a1).toNat) := by decide

theorem witness_FetchAndDecodeFaultsInTheirOrder :
    32768 ≤ (32768#16).toNat ∧ (32767#16).toNat = 32767 ∧
    (32765#16).toNat = 32765 ∧ opcodeAt { State.reset with pc := 32765#16, mem := [(32765, 0x60#8)] } ∈
      [0x60#8, 0x62#8, 0x64#8, 0x65#8, 0x66#8, 0x67#8, 0x68#8, 0x6A#8, 0x6C#8, 0x6D#8] ∧
    (32766#16).toNat = 32766 ∧ opcodeAt { State.reset with pc := 32766#16, mem := [(32766, 0x6D#8)] } ∈
      [0x60#8, 0x62#8, 0x64#8, 0x65#8, 0x66#8, 0x67#8, 0x68#8, 0x6A#8, 0x6C#8, 0x6D#8] ∧
    ¬ (opcodeAt { State.reset with pc := 32766#16 } = 0x31#8 ∨
      (0x60 ≤ (opcodeAt { State.reset with pc := 32766#16 }).toNat ∧
        (opcodeAt { State.reset with pc := 32766#16 }).toNat ≤ 0x71)) := by decide

theorem witness_FaultingStepKeepsNothing :
    step State.reset = .next (faultedAt State.reset (.decode 0x00#8)) ∧
    (faultedAt State.reset (.decode 0x00#8)).status = .faulted { faultPc := 0#16, info := .decode 0x00#8 } := ⟨rfl, rfl⟩

/-- reset with HALT at address 0. -/
def haltAtZero : State := State.reset.withFetchWord 16 0x0031

theorem witness_StepRunsTheDecodedInstruction : haltAtZero.status = .running ∧
    HoldsBytes haltAtZero.mem haltAtZero.pc.toNat [0x31#8, 0x00#8] ∧ decodeBytes [0x31#8, 0x00#8] = .ok (.halt, []) :=
  ⟨rfl, ⟨by decide, by decide⟩, rfl⟩

/-- reset, halted. -/
def halted : State := { State.reset with status := .halted }

/-- For RunningStepsAlwaysEndInAState, StoppedCoreNeverMoves, StatusesHaveTheirCodesAndExits. -/
theorem witness_status_hypotheses : State.reset.status = .running ∧ halted.status = .halted ∧ halted.status ≠ .running ∧
    (faultedAt State.reset (.decode 0x99#8)).status = .faulted { faultPc := 0#16, info := .decode 0x99#8 } := by decide

theorem witness_EveryStepKeepsInv : Inv haltAtZero ∧ ∃ t, step haltAtZero = .next t :=
  ⟨⟨by decide, by decide, by decide⟩, _, rfl⟩

/-- A Faulted state of the invariant, and one that a record naming another byte keeps out of it. -/
theorem test_invariant_holds_of_a_true_record_only : Inv (faultedAt State.reset (.decode 0x00#8)) ∧
    ¬ Inv (faultedAt State.reset (.decode 0x99#8)) :=
  ⟨⟨by decide, by decide, by decide⟩, fun h => absurd h.record (by decide)⟩

theorem witness_OnlyStoresChangeMemory :
    (∃ t, step haltAtZero = .next t) ∧ opcodeAt haltAtZero ≠ 0x62#8 ∧ opcodeAt haltAtZero ≠ 0x63#8 :=
  ⟨⟨_, rfl⟩, by decide, by decide⟩

theorem witness_OnlyOutOpcodesAppendToTheTrace : ∃ t, step (State.reset.withFetchWord 16 0x0371) = .next t := ⟨_, rfl⟩

theorem witness_FlagsAreWrittenOnlyByTheirInstructions :
    (∃ t, step (State.reset.withFetchWord 16 0x006E) = .next t) ∧
    opcodeAt (State.reset.withFetchWord 16 0x006E) ∉ [0x60#8, 0x61#8, 0x62#8, 0x63#8, 0x68#8, 0x69#8, 0x6A#8, 0x6B#8] ∧
    (∃ t, step (State.reset.withFetchWord 32 0x60) = .next t) ∧
    opcodeAt (State.reset.withFetchWord 32 0x60) ∉ [0x68#8, 0x69#8, 0x6A#8, 0x6B#8] ∧
    (∃ t, step (State.reset.withFetchWord 16 0x0169) = .next t) ∧
    opcodeAt (State.reset.withFetchWord 16 0x0169) = 0x69#8 :=
  ⟨⟨_, rfl⟩, by decide, ⟨_, rfl⟩, by decide, ⟨_, rfl⟩, by decide⟩

theorem witness_RegistersAreWrittenOnlyByTheirInstructions :
    (∃ t, step (State.reset.withFetchWord 16 0x016B) = .next t) ∧
    opcodeAt (State.reset.withFetchWord 16 0x016B) ∉ [0x60#8, 0x61#8] ∧
    (∃ t, step (State.reset.withFetchWord 32 0x62) = .next t) ∧
    opcodeAt (State.reset.withFetchWord 32 0x62) ∉ [0x60#8, 0x61#8, 0x68#8, 0x69#8, 0x6A#8, 0x6B#8] :=
  ⟨⟨_, rfl⟩, by decide, ⟨_, rfl⟩, by decide⟩

/-- reset with pc at 0x7FFC, the last place where a wide instruction fits, and one instruction there. -/
def lastWith (nbits w : Nat) : State := { State.reset with pc := 0x7FFC#16 }.withFetchWord nbits w

/-- The opcodes where the two clauses meet, STOREI 0x63, JMP 0x64, JMPO 0x67, ADD 0x68, and HALT. -/
theorem witness_CompletedStepsAdvanceThePc :
    ((∃ t, step (lastWith 16 0x8063) = .next t ∧ t.isFaulted = false) ∧ opcodeAt (lastWith 16 0x8063) = 0x63#8) ∧
    ((∃ t, step (lastWith 32 0x00400064) = .next t ∧ t.isFaulted = false) ∧
      opcodeAt (lastWith 32 0x00400064) = 0x64#8) ∧
    ((∃ t, step (lastWith 32 0x00400067) = .next t ∧ t.isFaulted = false) ∧
      opcodeAt (lastWith 32 0x00400067) = 0x67#8) ∧
    ((∃ t, step (lastWith 32 0x00010068) = .next t ∧ t.isFaulted = false) ∧
      opcodeAt (lastWith 32 0x00010068) = 0x68#8) ∧
    ((∃ t, step haltAtZero = .next t ∧ t.isFaulted = false) ∧ opcodeAt haltAtZero = 0x31#8) :=
  ⟨⟨⟨_, rfl, rfl⟩, by decide⟩, ⟨⟨_, rfl, rfl⟩, by decide⟩, ⟨⟨_, rfl, rfl⟩, by decide⟩, ⟨⟨_, rfl, rfl⟩, by decide⟩,
    ⟨_, rfl, rfl⟩, by decide⟩

theorem witness_PlacedWordIsWhatTheNextStepRuns :
    { State.reset with pc := 32764#16 }.pc.toNat ≤ 32764 ∧ decodeTableWord 32 0x00400065 = some (.jmpz 0x0040#16) := by
  decide

theorem witness_FetchSeesExactlyTheBytesAtThePc :
    (HoldsBytes [(32764, 0x64#8), (32766, 0x40#8)] (0x7FFC#16).toNat [0x64#8, 0x00#8, 0x40#8, 0x00#8] ∧
      decodeBytes [0x64#8, 0x00#8, 0x40#8, 0x00#8] = .ok (.jmp 0x0040#16, [])) ∧
    (writeWord [] 0x7FFE#16 0x0031#16 = .ok [(32766, 0x31#8)] ∧
      decodeBytes [lowByte 0x0031#16, highByte 0x0031#16] = .ok (.halt, [])) ∧
    ∀ k, k < 4 →
    Memory.get [(0, 0x31#8), (4, 0x07#8)] ((0#16).toNat + k) = Memory.get [(0, 0x31#8)] ((0#16).toNat + k) :=
  ⟨⟨⟨by decide, by decide⟩, rfl⟩, ⟨rfl, rfl⟩, by decide⟩

theorem witness_StartupLoadsTheProgramAtZero :
    (List.replicate 32768 0x31#8).length ≤ 32768 ∧ 32768 < (List.replicate 32769 0x31#8).length := by
  simp only [List.length_replicate]
  decide

/-- `OUTC 'A'; HALT` ends with exit zero and `A` on its stream; an empty program with the DecodeFault of 0x00. -/
theorem test_process_end :
    processRun 2 State.reset [0x6D#8, 0x00#8, 0x41#8, 0x00#8, 0x31#8, 0x00#8] =
      some { exit := .zero, message := none, stream := [0x41#8] } ∧
    (processRun 1 State.reset []).map (fun e => (e.exit, e.message)) = some (.nonZero,
      some { kind := .decode, record := some { faultPc := 0#16, info := .decode 0x00#8 } }) := by decide

/-- Each clause: too long; still Running, Halted and Faulted after some steps. -/
theorem witness_ProcessEndsByHaltFaultOrLoadFault : 32768 < (List.replicate 32769 0x31#8).length ∧
    (startup State.reset [0x31#8] = .ok { State.reset with mem := [(0, 0x31#8)] } ∧
      (runFor 0 { State.reset with mem := [(0, 0x31#8)] }).status = .running ∧
      (runFor 1 { State.reset with mem := [(0, 0x31#8)] }).status = .halted) ∧
    (startup State.reset [] = .ok State.reset ∧
      (runFor 1 State.reset).status = .faulted { faultPc := 0#16, info := .decode 0x00#8 }) := by
  refine ⟨?_, ⟨rfl, by decide, by decide⟩, rfl, by decide⟩
  simp only [List.length_replicate]
  decide

end Sys2Proof.Tests
end

section
/-! PROOF. The shape of a step (00_scope.md R10): what status it ends in, from each status. -/

namespace Sys2Proof.Machine

/-! ### What the body of an instruction yields where it does not raise -/

/-- Every state that a body can complete in satisfies `P`; of a body that raises nothing is asked. -/
def Yields (r : Except FaultInfo State) (P : State → Prop) : Prop := ∀ t, r = .ok t → P t

theorem yields_ok {P : State → Prop} {t : State} (h : P t) : Yields (.ok t) P := by
  rintro _ ⟨⟩
  exact h

theorem yields_error (e : FaultInfo) (P : State → Prop) : Yields (.error e) P := nofun

/-- A check or an access before the rest of a body can only raise, so the rest decides what the body yields. -/
theorem yields_bind {α : Type} {P : State → Prop} {f : α → Except FaultInfo State} (x : Except FaultInfo α)
    (h : ∀ a, Yields (f a) P) : Yields (x >>= f) P := by
  cases x with
  | error e => exact yields_error e P
  | ok a => exact h a

theorem storeAndReadBack_yields_status (s : State) (a v : Word) :
    Yields (storeAndReadBack s a v) (·.status = s.status) := by
  rw [storeAndReadBack_eq]
  split
  · exact yields_error _ _
  · exact yields_ok (by simp)

@[simp] theorem jumpIf_status (b : Bool) (imm : Word) (s : State) : (jumpIf b imm s).status = s.status := by
  rw [jumpIf_eq]

/-! ### The status in which an instruction ends -/

theorem exec_halt (s : State) : exec .halt s = .next s.advanceNarrow.halt := rfl

/-- Every instruction but HALT has a body that keeps the status where it completes. -/
theorem exec_eq_conclude_of_ne_halt {i : Instr} (hi : i ≠ .halt) (s : State) :
    ∃ r, exec i s = s.conclude r ∧ Yields r (·.status = s.status) := by
  cases i with
  | halt => exact absurd rfl hi
  | load reg1 imm => exact ⟨_, rfl, yields_ok (by simp)⟩
  | loadi reg1 reg2 => exact ⟨_, rfl, yields_bind _ fun _ => yields_bind _ fun _ => yields_ok (by simp)⟩
  | store reg1 imm => exact ⟨_, rfl, storeAndReadBack_yields_status s.advanceWide _ _⟩
  | storei reg1 reg2 =>
    exact ⟨_, rfl, yields_bind _ fun _ => storeAndReadBack_yields_status s.advanceNarrow _ _⟩
  | jmp imm => exact ⟨_, rfl, yields_ok (by simp)⟩
  | jmpz imm => exact ⟨_, rfl, yields_ok (by simp)⟩
  | jmpn imm => exact ⟨_, rfl, yields_ok (by simp)⟩
  | jmpo imm => exact ⟨_, rfl, yields_ok (by simp)⟩
  | add reg1 imm => exact ⟨_, rfl, yields_bind _ fun _ => yields_ok (by simp)⟩
  | addr reg1 reg2 =>
    exact ⟨_, rfl, yields_bind _ fun _ => yields_bind _ fun _ => yields_ok (by split <;> simp)⟩
  | sub reg1 imm => exact ⟨_, rfl, yields_bind _ fun _ => yields_ok (by simp)⟩
  | subr reg1 reg2 =>
    exact ⟨_, rfl, yields_bind _ fun _ => yields_bind _ fun _ => yields_ok (by split <;> simp)⟩
  | out imm => exact ⟨_, rfl, yields_ok (by simp)⟩
  | outc imm => exact ⟨_, rfl, yields_ok (by simp)⟩
  | outr reg1 => exact ⟨_, rfl, yields_bind _ fun _ => yields_ok (by simp)⟩
  | outrc reg1 => exact ⟨_, rfl, yields_bind _ fun _ => yields_ok (by simp)⟩
  | outi reg1 => exact ⟨_, rfl, yields_bind _ fun _ => yields_bind _ fun _ => yields_ok (by simp)⟩
  | outic reg1 => exact ⟨_, rfl, yields_bind _ fun _ => yields_bind _ fun _ => yields_ok (by simp)⟩

/-- An instruction run in Running always ends in a next state, which is Halted exactly for HALT (45_halt.md R200). -/
theorem exec_status_halted_iff (i : Instr) {s : State} (hs : s.status = .running) :
    ∃ t, exec i s = .next t ∧ (t.status = .halted ↔ i = .halt) := by
  by_cases hi : i = .halt
  · subst hi
    exact ⟨_, exec_halt s, by simp⟩
  · obtain ⟨r, hexec, hstatus⟩ := exec_eq_conclude_of_ne_halt hi s
    rcases s.conclude_cases r with ⟨t, hr, hnext⟩ | ⟨e, -, hnext⟩
    · exact ⟨t, hexec.trans hnext, by simp [hstatus t hr, hs, hi]⟩
    · exact ⟨_, hexec.trans hnext, by simp [hi]⟩

/-! ### The step from each status -/

theorem step_of_fetchInstr_error {s : State} {e : FaultInfo} (hs : s.status = .running)
    (h : fetchInstr s.mem s.pc = .error e) : step s = .next (s.takeFault e) := by
  simp only [step, hs, h]

theorem step_of_fetchInstr_ok {s : State} {i : Instr} (hs : s.status = .running)
    (h : fetchInstr s.mem s.pc = .ok i) : step s = exec i s := by
  simp only [step, hs, h]

theorem step_ne_next_of_not_running {s : State} (hs : s.status ≠ .running) (t : State) : step s ≠ .next t :=
  fun h => hs (step_cases h).1

end Sys2Proof.Machine

open Sys2Proof.Machine

/-- Settles O35: a Running step either takes a fetch or decode fault or runs the instruction fetched. -/
theorem runningStepsAlwaysEndInAState : Obligations.RunningStepsAlwaysEndInAState := by
  refine fun s => ⟨fun hs => ?_, step_ne_next_of_not_running⟩
  cases hf : fetchInstr s.mem s.pc with
  | error e => exact ⟨_, step_of_fetchInstr_error hs hf, by simp⟩
  | ok i =>
    obtain ⟨t, hexec, hhalted⟩ := exec_status_halted_iff i hs
    exact ⟨t, (step_of_fetchInstr_ok hs hf).trans hexec, by simpa using hhalted⟩
end

section
/-! PROOF. What one step can do to the state (10_state.md): the effects a completed instruction can have, the faults a
body can raise, and the invariant and the whole-machine rules that follow from them. -/

namespace Sys2Proof

/-! ### The fields of an instruction -/

/-- The operand of a wide instruction (30_encoding.md R85). -/
def Instr.operand : Instr → Option Word
  | .load _ v | .store _ v | .jmp v | .jmpz v | .jmpn v | .jmpo v | .add _ v | .sub _ v | .out v | .outc v => some v
  | .halt | .loadi _ _ | .storei _ _ | .addr _ _ | .subr _ _ | .outr _ | .outrc _ | .outi _ | .outic _ => none

/-- The register a selector field names, for a field the instruction uses (30_encoding.md R83, R90). -/
def Instr.regIn (i : Instr) : Machine.Field → Option Reg
  | .reg1 => match i with
    | .load r _ | .store r _ | .add r _ | .sub r _ | .loadi r _ | .storei r _ | .addr r _ | .subr r _ => some r
    | .outr r | .outrc r | .outi r | .outic r => some r
    | .halt | .jmp _ | .jmpz _ | .jmpn _ | .jmpo _ | .out _ | .outc _ => none
  | .reg2 => match i with
    | .loadi _ q | .storei _ q | .addr _ q | .subr _ q => some q
    | _ => none

/-- The bytes an instruction takes, as the advance of pc adds them (40_step_cycle.md R113). -/
def Instr.length (i : Instr) : Word := if isWide i.opcode then 4#16 else 2#16

theorem isValid_opcode (i : Instr) : isValid i.opcode = true := by cases i <;> rfl

theorem isWide_opcode_eq (i : Instr) : isWide i.opcode = i.operand.isSome := by cases i <;> rfl

theorem isWide_opcode_of_operand {i : Instr} {v : Word} (h : i.operand = some v) : isWide i.opcode = true := by
  rw [isWide_opcode_eq, h, Option.isSome_some]

/-- Outside the jumps the wide opcodes are the six that the statement about the advance of pc lists (30_encoding.md R86). -/
theorem isWide_iff_of_not_jump : ∀ opc : Byte, opc.toNat < 0x64 ∨ 0x67 < opc.toNat →
    (isWide opc = true ↔ opc ∈ [0x60#8, 0x62#8, 0x68#8, 0x6A#8, 0x6C#8, 0x6D#8]) := by decide

theorem isWide_of_jump : ∀ opc : Byte, 0x64 ≤ opc.toNat ∧ opc.toNat ≤ 0x67 → isWide opc = true := by decide

theorem jump_opcode_range : ∀ opc ∈ [0x64#8, 0x65#8, 0x66#8, 0x67#8], 0x64 ≤ opc.toNat ∧ opc.toNat ≤ 0x67 := by decide

theorem decodeFields_operand {opc selb : Byte} {imm v : Word} {i : Instr} (h : decodeFields opc selb imm = some i)
    (hv : i.operand = some v) : v = imm := by
  have hfields := decodeFields_fields h
  cases i <;> simp_all [Instr.operand]

end Sys2Proof

namespace Sys2Proof.Machine

/-! ### What a fetched instruction says of the bytes at pc -/

section Fetched
variable {m : Memory} {pc : Word} {i : Instr}

theorem fetchInstr_opcode (h : fetchInstr m pc = .ok i) : i.opcode = m.get pc.toNat := by
  obtain ⟨-, imm, hdec, -⟩ := fetchInstr_ok h
  exact decodeFields_opcode hdec

theorem fetchInstr_operand {v : Word} (h : fetchInstr m pc = .ok i) (hv : i.operand = some v) :
    v = joinBytes (m.get (pc.toNat + 2)) (m.get (pc.toNat + 3)) := by
  obtain ⟨-, imm, hdec, hwide⟩ := fetchInstr_ok h
  have hw : isWide (m.get pc.toNat) = true := fetchInstr_opcode h ▸ isWide_opcode_of_operand hv
  rw [decodeFields_operand hdec hv, (hwide hw).2]

/-- The instruction lies inside memory, so pc does not wrap when it is advanced (10_state.md R26). -/
theorem fetchInstr_advance (h : fetchInstr m pc = .ok i) :
    (pc + i.length).toNat = pc.toNat + if isWide i.opcode then 4 else 2 := by
  obtain ⟨hpc, imm, -, hwide⟩ := fetchInstr_ok h
  rw [← fetchInstr_opcode h] at hwide
  unfold Instr.length
  split
  · have := (hwide ‹_›).1
    bv_omega
  · bv_omega

theorem fetchInstr_regIn {s : State} {f : Field} {r : Reg} (h : fetchInstr s.mem s.pc = .ok i)
    (hr : i.regIn f = some r) : r = Reg.ofSelector (s.instrSelector f) := by
  obtain ⟨-, imm, hdec, -⟩ := fetchInstr_ok h
  have hfields := decodeFields_fields hdec
  cases f with
  | reg1 => cases i <;> simp_all [Instr.regIn, State.instrSelector, State.instrByte]
  | reg2 => cases i <;> simp_all [Instr.regIn, State.instrSelector, State.instrByte]

theorem fetchInstr_instrReg {s : State} {f : Field} {r : Reg} (h : fetchInstr s.mem s.pc = .ok i)
    (hr : i.regIn f = some r) : s.instrReg f = s.reg r := by
  rw [State.instrReg, ← fetchInstr_regIn h hr]

end Fetched

/-! ### The effects of a completed instruction -/

/-- The state with pc past the instruction (40_step_cycle.md R113). -/
abbrev State.past (s : State) (i : Instr) : State := s.jump (s.pc + i.length)

/-- What instruction `i`, begun in `s`, can do where it completes: one constructor for each group of opcodes that write
the same parts of the state. It says who writes what; the values written are left open where no rule about all steps needs
them. -/
inductive Effect (s : State) (i : Instr) : State → Prop
  | halted (hi : i.opcode = 0x31#8) : Effect s i (s.past i).halt
  | loaded {r : Reg} {v : Word} (hi : i.opcode ∈ [0x60#8, 0x61#8]) : Effect s i (((s.past i).setReg r v).setZN v)
  | stored {a v : Word} {m : Memory} (hi : i.opcode ∈ [0x62#8, 0x63#8]) (hm : writeWord s.mem a v = .ok m) :
    Effect s i (((s.past i).withMem m).setZN v)
  | jumped {v : Word} (hi : i.opcode ∈ [0x64#8, 0x65#8, 0x66#8, 0x67#8]) (hv : i.operand = some v) :
    Effect s i (s.jump v)
  | computed {r : Reg} {v : Word} {b : Bool} (hi : i.opcode ∈ [0x68#8, 0x69#8, 0x6A#8, 0x6B#8]) (hr : r.cls = .data)
    (ho : i.opcode = 0x69#8 → Config.addrWritesO = true ∨ b = s.o) : Effect s i (writeResult (s.past i) r v b)
  | emitted {x : Output} (hi : i.opcode ∈ [0x6C#8, 0x6D#8, 0x6E#8, 0x6F#8, 0x70#8, 0x71#8]) :
    Effect s i ((s.past i).emit x)
  /-- A jump not taken, or the explicit no-op of ADDR and SUBR (43_arithmetic.md R168). -/
  | skipped (hi : i.opcode ∈ [0x64#8, 0x65#8, 0x66#8, 0x67#8, 0x69#8, 0x6B#8]) : Effect s i (s.past i)

/-! ### The faults a body can raise -/

/-- The address of the word a body reads (41_load_store.md R141, 44_output.md R188, R189). -/
def State.readAddress (s : State) : Instr → Option Word
  | .loadi _ q => some (s.reg q)
  | .outi r | .outic r => some (s.reg r)
  | _ => none

/-- The address of the word a body writes (41_load_store.md R142, R143). -/
def State.writeAddress (s : State) : Instr → Option Word
  | .store _ v => some v
  | .storei _ q => some (s.reg q)
  | _ => none

/-- What the body of instruction `i`, begun in `s`, can raise (60_exceptions.md R211, R212). -/
inductive Raises (s : State) (i : Instr) : FaultInfo → Prop
  | wrongClass {f : Field} {r : Reg} {c : RegClass} (hr : i.regIn f = some r) (hc : r.cls ≠ c) :
    Raises s i (.operandClass i.opcode f r.selector c)
  | readOutside {a : Word} (ha : s.readAddress i = some a) (hout : 32767 ≤ a.toNat) :
    Raises s i (.bounds a .dataRead .word)
  | writeOutside {a : Word} (ha : s.writeAddress i = some a) (hout : 32767 ≤ a.toNat) :
    Raises s i (.bounds a .dataWrite .word)

/-! ### How a body ends -/

/-- The body computation `r` of instruction `i`, begun in `s`, ends in one of its effects or raises one of its faults. -/
def BodyEnds (s : State) (i : Instr) : Except FaultInfo State → Prop
  | .ok t => Effect s i t
  | .error e => Raises s i e

section BodyEnds
variable {s : State} {i : Instr}

theorem bodyEnds_ok {t : State} (h : Effect s i t) : BodyEnds s i (.ok t) := h

theorem bodyEnds_requireClass {f : Field} {r : Reg} {c : RegClass} {rest : Unit → Except FaultInfo State}
    (hr : i.regIn f = some r) (h : r.cls = c → BodyEnds s i (rest ())) :
    BodyEnds s i (requireClass c i.opcode f r >>= rest) := by
  by_cases hc : r.cls = c
  · rw [requireClass_pos _ _ hc]
    exact h hc
  · rw [requireClass_neg _ _ hc]
    exact Raises.wrongClass hr hc

theorem bodyEnds_readWord {a : Word} {rest : Word → Except FaultInfo State} (ha : s.readAddress i = some a)
    (h : ∀ v, BodyEnds s i (rest v)) : BodyEnds s i (readWord .dataRead s.mem a >>= rest) := by
  cases hread : readWord .dataRead s.mem a with
  | ok v => exact h v
  | error e =>
    obtain ⟨hout, rfl⟩ := readWord_error hread
    exact Raises.readOutside ha hout

theorem bodyEnds_storeAndReadBack {a v : Word} (hi : i.opcode ∈ [0x62#8, 0x63#8]) (ha : s.writeAddress i = some a) :
    BodyEnds s i (storeAndReadBack (s.past i) a v) := by
  rw [storeAndReadBack_eq]
  rcases writeWord_cases s.mem a v with ⟨hout, -⟩ | ⟨hin, hm⟩
  · rw [if_pos hout]
    exact Raises.writeOutside ha hout
  · rw [if_neg (by omega)]
    exact Effect.stored hi hm

theorem bodyEnds_jumpIf {v : Word} (b : Bool) (hi : i.opcode ∈ [0x64#8, 0x65#8, 0x66#8, 0x67#8])
    (hv : i.operand = some v) : BodyEnds s i (.ok (jumpIf b v s)) := by
  cases b with
  | true => exact Effect.jumped hi hv
  | false =>
    have hpast : jumpIf false v s = s.past i := by
      simp [jumpIf_eq, State.jump, Instr.length, isWide_opcode_of_operand hv]
    exact hpast ▸ Effect.skipped (List.mem_append_left [0x69#8, 0x6B#8] hi)

theorem bodyEnds_computed_unless_same {r q : Reg} {v : Word} {b : Bool} (hi : i.opcode ∈ [0x69#8, 0x6B#8])
    (hr : r.cls = .data) (ho : i.opcode = 0x69#8 → Config.addrWritesO = true ∨ b = s.o) :
    BodyEnds s i (.ok (if r = q then s.past i else writeResult (s.past i) r v b)) := by
  split
  · exact Effect.skipped (List.mem_append_right [0x64#8, 0x65#8, 0x66#8, 0x67#8] hi)
  · exact Effect.computed (by simp at hi ⊢; tauto) hr ho

end BodyEnds

/-- Every instruction's meaning is a body that ends in one of its effects or raises one of its faults. -/
theorem exec_eq_conclude_bodyEnds (i : Instr) (s : State) : ∃ r, exec i s = s.conclude r ∧ BodyEnds s i r := by
  cases i with
  | halt => exact ⟨_, rfl, bodyEnds_ok (.halted rfl)⟩
  | load reg1 imm => exact ⟨_, rfl, bodyEnds_ok (.loaded (.head _))⟩
  | loadi reg1 reg2 =>
    exact ⟨_, rfl, bodyEnds_requireClass rfl fun _ => bodyEnds_readWord rfl fun _ =>
      bodyEnds_ok (.loaded (.tail _ (.head _)))⟩
  | store reg1 imm => exact ⟨_, rfl, bodyEnds_storeAndReadBack (.head _) rfl⟩
  | storei reg1 reg2 =>
    exact ⟨_, rfl, bodyEnds_requireClass rfl fun _ => bodyEnds_storeAndReadBack (.tail _ (.head _)) rfl⟩
  | jmp imm => exact ⟨_, rfl, bodyEnds_jumpIf true (by simp [Instr.opcode]) rfl⟩
  | jmpz imm => exact ⟨_, rfl, bodyEnds_jumpIf s.z (by simp [Instr.opcode]) rfl⟩
  | jmpn imm => exact ⟨_, rfl, bodyEnds_jumpIf s.n (by simp [Instr.opcode]) rfl⟩
  | jmpo imm => exact ⟨_, rfl, bodyEnds_jumpIf s.o (by simp [Instr.opcode]) rfl⟩
  | add reg1 imm =>
    exact ⟨_, rfl, bodyEnds_requireClass rfl fun hr => bodyEnds_ok (.computed (by simp [Instr.opcode]) hr nofun)⟩
  | addr reg1 reg2 =>
    refine ⟨_, rfl, bodyEnds_requireClass rfl fun hr => bodyEnds_requireClass rfl fun _ =>
      bodyEnds_computed_unless_same (.head _) hr fun _ => ?_⟩
    cases Config.addrWritesO <;> simp
  | sub reg1 imm =>
    exact ⟨_, rfl, bodyEnds_requireClass rfl fun hr => bodyEnds_ok (.computed (by simp [Instr.opcode]) hr nofun)⟩
  | subr reg1 reg2 =>
    exact ⟨_, rfl, bodyEnds_requireClass rfl fun hr => bodyEnds_requireClass rfl fun _ =>
      bodyEnds_computed_unless_same (.tail _ (.head _)) hr nofun⟩
  | out imm => exact ⟨_, rfl, bodyEnds_ok (.emitted (by simp [Instr.opcode]))⟩
  | outc imm => exact ⟨_, rfl, bodyEnds_ok (.emitted (by simp [Instr.opcode]))⟩
  | outr reg1 => exact ⟨_, rfl, bodyEnds_requireClass rfl fun _ => bodyEnds_ok (.emitted (by simp [Instr.opcode]))⟩
  | outrc reg1 => exact ⟨_, rfl, bodyEnds_requireClass rfl fun _ => bodyEnds_ok (.emitted (by simp [Instr.opcode]))⟩
  | outi reg1 =>
    exact ⟨_, rfl, bodyEnds_requireClass rfl fun _ => bodyEnds_readWord rfl fun _ =>
      bodyEnds_ok (.emitted (by simp [Instr.opcode]))⟩
  | outic reg1 =>
    exact ⟨_, rfl, bodyEnds_requireClass rfl fun _ => bodyEnds_readWord rfl fun _ =>
      bodyEnds_ok (.emitted (by simp [Instr.opcode]))⟩

/-! ### A fault reports the truth about the instruction at pc -/

/-- The report is one the machine can make and fits the instruction at pc, as the invariant asks. -/
def TrueReport (s : State) (e : FaultInfo) : Prop := e.legal = true ∧ s.reportFits e = true

theorem fetch_ok_opc {m : Memory} {pc : Word} {f : Fetched} (h : fetch m pc = .ok f) : f.opc = m.get pc.toNat := by
  rcases fetch_cases m pc with ⟨-, e⟩ | ⟨-, e⟩ | ⟨-, -, -, e⟩ | ⟨-, -, e⟩ | ⟨-, -, e⟩ <;> rw [h] at e <;> cases e <;> rfl

theorem trueReport_of_fetch_error {s : State} {e : FaultInfo} (h : fetch s.mem s.pc = .error e) : TrueReport s e := by
  rcases fetch_cases s.mem s.pc with ⟨hpc, hf⟩ | ⟨hpc, hf⟩ | ⟨hpc, hwide, hpc', hf⟩ | ⟨-, -, hf⟩ | ⟨-, -, hf⟩ <;>
    rw [h] at hf <;> cases hf
  · exact ⟨by simp [FaultInfo.legal, Config.memSize, hpc], by simp [State.reportFits]⟩
  · have hnext : 32768#16 = s.pc + 1#16 := by bv_omega
    exact ⟨rfl, by simp [State.reportFits, hnext]⟩
  · have hnext : 32767 ≤ (s.pc + 2#16).toNat := by bv_omega
    exact ⟨by simp only [FaultInfo.legal, Config.wordLimit, hnext]; rfl,
      by simpa [State.reportFits, State.instrByte] using hwide⟩

theorem trueReport_of_fetchInstr_error {s : State} {e : FaultInfo} (h : fetchInstr s.mem s.pc = .error e) :
    TrueReport s e := by
  rcases fetchInstr_cases s.mem s.pc with ⟨e', hfetch, he⟩ | ⟨f, hfetch, hdec, he⟩ | ⟨f, i, -, -, he⟩ <;>
    rw [h] at he <;> cases he
  · exact trueReport_of_fetch_error hfetch
  · rcases decodeFields_cases f.opc f.selb f.imm with ⟨hinvalid, -⟩ | ⟨-, i, hsome, -⟩
    · exact ⟨by simp [FaultInfo.legal, hinvalid], by simp [State.reportFits, State.instrByte, fetch_ok_opc hfetch]⟩
    · rw [hdec] at hsome
      cases hsome

section Raised
variable {s : State} {i : Instr} (hfetch : fetchInstr s.mem s.pc = .ok i)
include hfetch

theorem fetchInstr_instrByte_zero : s.instrByte 0 = i.opcode := (fetchInstr_opcode hfetch).symm

theorem reportFits_of_readAddress {a : Word} (ha : s.readAddress i = some a) :
    s.reportFits (.bounds a .dataRead .word) = true := by
  have hopc := fetchInstr_instrByte_zero hfetch
  cases i <;> cases ha
  case loadi r q =>
    have hq := fetchInstr_instrReg (f := .reg2) hfetch rfl
    simp [State.reportFits, hopc, Instr.opcode, hq]
  case outi r =>
    have hr := fetchInstr_instrReg (f := .reg1) hfetch rfl
    simp [State.reportFits, hopc, Instr.opcode, hr]
  case outic r =>
    have hr := fetchInstr_instrReg (f := .reg1) hfetch rfl
    simp [State.reportFits, hopc, Instr.opcode, hr]

theorem reportFits_of_writeAddress {a : Word} (ha : s.writeAddress i = some a) :
    s.reportFits (.bounds a .dataWrite .word) = true := by
  have hopc := fetchInstr_instrByte_zero hfetch
  cases i <;> cases ha
  case store r =>
    have hv : a = joinBytes (s.instrByte 2) (s.instrByte 3) := fetchInstr_operand hfetch rfl
    simp [State.reportFits, hopc, Instr.opcode, ← hv]
  case storei r q =>
    have hq := fetchInstr_instrReg (f := .reg2) hfetch rfl
    simp [State.reportFits, hopc, Instr.opcode, hq]

theorem trueReport_of_raises {e : FaultInfo} (h : Raises s i e) : TrueReport s e := by
  cases h with
  | wrongClass hr hc =>
    refine ⟨by simpa [FaultInfo.legal, isValid_opcode] using hc, ?_⟩
    simp [State.reportFits, fetchInstr_instrByte_zero hfetch, fetchInstr_regIn hfetch hr]
  | readOutside ha hout =>
    exact ⟨by simp [FaultInfo.legal, Config.wordLimit, hout], reportFits_of_readAddress hfetch ha⟩
  | writeOutside ha hout =>
    exact ⟨by simp [FaultInfo.legal, Config.wordLimit, hout], reportFits_of_writeAddress hfetch ha⟩

end Raised

/-! ### Everything a step can do -/

/-- A step is the entry of a fault that reports the truth, or an effect of the instruction fetched. -/
theorem step_effect {s t : State} (h : step s = .next t) :
    s.status = .running ∧ ((∃ e, TrueReport s e ∧ t = s.takeFault e) ∨
      ∃ i, fetchInstr s.mem s.pc = .ok i ∧ Effect s i t) := by
  obtain ⟨hs, ⟨e, hfetch, ht⟩ | ⟨i, hfetch, hexec⟩⟩ := step_cases h
  · exact ⟨hs, .inl ⟨e, trueReport_of_fetchInstr_error hfetch, ht⟩⟩
  · obtain ⟨r, hbody, hends⟩ := exec_eq_conclude_bodyEnds i s
    rw [hexec] at hbody
    cases r with
    | ok t' =>
      cases hbody
      exact ⟨hs, .inr ⟨i, hfetch, hends⟩⟩
    | error e =>
      cases hbody
      exact ⟨hs, .inl ⟨e, trueReport_of_raises hfetch hends, rfl⟩⟩

/-! ### Which parts of the state an effect writes -/

theorem State.setZN_flags_apart (s : State) (v : Word) : ((s.setZN v).z && (s.setZN v).n) = false := by
  by_cases hv : v = 0#16
  · subst hv
    rfl
  · simp [hv]

section Frame
variable {s t : State} {i : Instr}

theorem Effect.out_cases (h : Effect s i t) :
    t.out = s.out ∨ ((0x6C ≤ i.opcode.toNat ∧ i.opcode.toNat ≤ 0x71) ∧ ∃ x, t.out = s.out ++ [x]) := by
  cases h with
  | emitted hi =>
    have hrange : ∀ opc ∈ [0x6C#8, 0x6D#8, 0x6E#8, 0x6F#8, 0x70#8, 0x71#8], 0x6C ≤ opc.toNat ∧ opc.toNat ≤ 0x71 := by
      decide
    exact .inr ⟨hrange _ hi, _, rfl⟩
  | _ => exact .inl (by simp)

theorem Effect.zn_eq (h : Effect s i t)
    (hi : i.opcode ∉ [0x60#8, 0x61#8, 0x62#8, 0x63#8, 0x68#8, 0x69#8, 0x6A#8, 0x6B#8]) : t.z = s.z ∧ t.n = s.n := by
  cases h with
  | loaded hi' | stored hi' _ | computed hi' _ _ => exact absurd hi (by simp_all)
  | halted _ | jumped _ _ | emitted _ | skipped _ => exact ⟨by simp, by simp⟩

theorem Effect.o_eq (h : Effect s i t) (hi : i.opcode ∉ [0x68#8, 0x69#8, 0x6A#8, 0x6B#8]) : t.o = s.o := by
  cases h with
  | computed hi' _ _ => exact absurd hi' hi
  | _ => simp

theorem Effect.addr_o_cases (h : Effect s i t) (hi : i.opcode = 0x69#8) : Config.addrWritesO = true ∨ t.o = s.o := by
  cases h with
  | computed _ _ ho => simpa using ho hi
  | _ => exact .inr (by simp)

theorem Effect.reg_eq (h : Effect s i t) (hi : i.opcode ∉ [0x60#8, 0x61#8, 0x68#8, 0x69#8, 0x6A#8, 0x6B#8]) (q : Reg) :
    t.reg q = s.reg q := by
  cases h with
  | loaded hi' | computed hi' _ _ => exact absurd hi (by simp_all)
  | halted _ | stored _ _ | jumped _ _ | emitted _ | skipped _ => simp

/-- The arithmetic writes data registers only (43_arithmetic.md, 40_step_cycle.md R116), so of the opcodes that write a
register the loads alone write an address register. -/
theorem Effect.address_reg_eq (h : Effect s i t) (hi : i.opcode ∉ [0x60#8, 0x61#8]) {q : Reg}
    (hq : q.cls = .address) : t.reg q = s.reg q := by
  cases h with
  | loaded hi' => exact absurd hi' hi
  | computed _ hr _ =>
    rw [writeResult_reg, if_neg (by rintro rfl; rw [hr] at hq; cases hq), State.jump_reg]
  | _ => simp

theorem Effect.pc_cases (h : Effect s i t) :
    t.pc = s.pc + i.length ∨ (i.opcode ∈ [0x64#8, 0x65#8, 0x66#8, 0x67#8] ∧ i.operand = some t.pc) := by
  cases h with
  | jumped hi hv => exact .inr ⟨hi, hv⟩
  | _ => exact .inl (by simp)

theorem Effect.wf (h : Effect s i t) (hs : s.mem.wf) : t.mem.wf := by
  cases h with
  | stored _ hm => exact writeWord_wf hm hs
  | _ => simpa using hs

theorem Effect.flags_apart (h : Effect s i t) (hs : (s.z && s.n) = false) : (t.z && t.n) = false := by
  cases h with
  | loaded _ | stored _ _ | computed _ _ _ => exact State.setZN_flags_apart _ _
  | halted _ | jumped _ _ | emitted _ | skipped _ => exact hs

theorem Effect.status_cases (h : Effect s i t) : t.status = .halted ∨ t.status = s.status := by
  cases h with
  | halted _ => exact .inl rfl
  | _ => exact .inr (by simp)

end Frame

/-! ### The invariant -/

theorem recordTrue_of_not_faulted {t : State} (h : ∀ record, t.status ≠ .faulted record) : t.recordTrue = true := by
  unfold State.recordTrue
  split
  · rfl
  · rfl
  · exact absurd ‹_› (h _)

theorem recordTrue_takeFault {s : State} {e : FaultInfo} (h : TrueReport s e) : (s.takeFault e).recordTrue = true := by
  obtain ⟨hlegal, hfits⟩ := h
  have hkept : (s.takeFault e).reportFits e = s.reportFits e := rfl
  simp [State.recordTrue, hlegal, hkept, hfits]

theorem Inv.takeFault {s : State} {e : FaultInfo} (hs : Inv s) (he : TrueReport s e) : Inv (s.takeFault e) :=
  ⟨hs.memory, hs.flags, recordTrue_takeFault he⟩

theorem Inv.effect {s t : State} {i : Instr} (hs : Inv s) (hrun : s.status = .running) (h : Effect s i t) : Inv t :=
  ⟨h.wf hs.memory, h.flags_apart hs.flags,
    recordTrue_of_not_faulted (by rcases h.status_cases with ht | ht <;> simp [ht, hrun])⟩

/-! ### The fetch as a function of four bytes -/

section FetchBytes
variable {m : Memory} {pc : Word} {i : Instr}

theorem fetchInstr_of_narrow (hpc : pc.toNat < 32767) (hnarrow : isWide (m.get pc.toNat) = false)
    (hdec : decodeFields (m.get pc.toNat) (m.get (pc.toNat + 1)) 0#16 = some i) : fetchInstr m pc = .ok i := by
  rcases fetch_cases m pc with ⟨hout, -⟩ | ⟨hout, -⟩ | ⟨-, hw, -⟩ | ⟨-, hw, -⟩ | ⟨-, -, hf⟩
  · omega
  · omega
  · simp [hnarrow] at hw
  · simp [hnarrow] at hw
  · rw [fetchInstr, hf, bind_ok, hdec]
    rfl

theorem fetchInstr_of_wide (hpc : pc.toNat < 32765) (hwide : isWide (m.get pc.toNat) = true)
    (hdec : decodeFields (m.get pc.toNat) (m.get (pc.toNat + 1))
      (joinBytes (m.get (pc.toNat + 2)) (m.get (pc.toNat + 3))) = some i) : fetchInstr m pc = .ok i := by
  rcases fetch_cases m pc with ⟨hout, -⟩ | ⟨hout, -⟩ | ⟨-, -, hout, -⟩ | ⟨-, -, hf⟩ | ⟨-, hn, -⟩
  · omega
  · omega
  · omega
  · rw [fetchInstr, hf, bind_ok, hdec]
    rfl
  · simp [hwide] at hn

/-- Both memories agree on the four bytes from pc up, so every read of the fetch answers the same. -/
theorem fetch_congr {m' : Memory} (h : ∀ k, k < 4 → m'.get (pc.toNat + k) = m.get (pc.toNat + k)) :
    fetch m' pc = fetch m pc := by
  by_cases hpc : 32768 ≤ pc.toNat
  · simp only [fetch, readByte_eq, if_pos hpc, bind_error]
  · have e1 : (pc + 1#16).toNat = pc.toNat + 1 := by bv_omega
    have e2 : (pc + 2#16).toNat = pc.toNat + 2 := by bv_omega
    have h0 : m'.get pc.toNat = m.get pc.toNat := h 0 (by omega)
    have h3 : m'.get (pc.toNat + 2 + 1) = m.get (pc.toNat + 2 + 1) := h 3 (by omega)
    simp only [fetch, readByte_eq, readWord_eq, e1, e2, h0, h 1 (by omega), h 2 (by omega), h3]

end FetchBytes

/-- A list of bytes that is exactly one instruction is two bytes long for a narrow opcode and four for a wide one. -/
theorem decodeBytes_ok_nil {bs : List Byte} {i : Instr} (h : decodeBytes bs = .ok (i, [])) :
    (∃ opc selb, bs = [opc, selb] ∧ isWide opc = false ∧ decodeFields opc selb 0#16 = some i) ∨
    (∃ opc selb lo hi, bs = [opc, selb, lo, hi] ∧ isWide opc = true ∧
      decodeFields opc selb (joinBytes lo hi) = some i) := by
  unfold decodeBytes at h
  split at h
  · split at h
    · split at h
      · split at h <;> cases h
        exact .inr ⟨_, _, _, _, rfl, ‹_›, ‹_›⟩
      · cases h
    · split at h <;> cases h
      exact .inl ⟨_, _, rfl, by simp_all, ‹_›⟩
  · cases h

end Sys2Proof.Machine

namespace Sys2Proof.Slice0

open Sys2Proof.Machine

theorem opcodeAt_eq {s : State} {i : Instr} (h : fetchInstr s.mem s.pc = .ok i) : opcodeAt s = i.opcode :=
  (fetchInstr_opcode h).symm

/-- The fetch reads the instruction whose bytes memory holds at pc (20_memory.md R64). -/
theorem fetchInstr_of_holdsBytes {m : Memory} {pc : Word} {bs : List Byte} {i : Instr}
    (hmem : HoldsBytes m pc.toNat bs) (hdec : decodeBytes bs = .ok (i, [])) : fetchInstr m pc = .ok i := by
  obtain ⟨hin, hget⟩ := hmem
  rcases decodeBytes_ok_nil hdec with ⟨opc, selb, rfl, hw, hd⟩ | ⟨opc, selb, lo, hi, rfl, hw, hd⟩
  · have h0 : m.get pc.toNat = opc := hget 0 (by simp)
    have h1 : m.get (pc.toNat + 1) = selb := hget 1 (by simp)
    simp only [List.length_cons, List.length_nil] at hin
    subst h0 h1
    exact fetchInstr_of_narrow (by omega) hw hd
  · have h0 : m.get pc.toNat = opc := hget 0 (by simp)
    have h1 : m.get (pc.toNat + 1) = selb := hget 1 (by simp)
    have h2 : m.get (pc.toNat + 2) = lo := hget 2 (by simp)
    have h3 : m.get (pc.toNat + 3) = hi := hget 3 (by simp)
    simp only [List.length_cons, List.length_nil] at hin
    subst h0 h1 h2 h3
    exact fetchInstr_of_wide (by omega) hw hd

/-- A word write leaves the two bytes of the word at its address. -/
theorem holdsBytes_writeWord {m m' : Memory} {a v : Word} (h : writeWord m a v = .ok m') :
    HoldsBytes m' a.toNat [lowByte v, highByte v] := by
  rcases writeWord_cases m a v with ⟨-, e⟩ | ⟨hin, e⟩ <;> rw [h] at e <;> cases e
  refine ⟨by simp only [List.length_cons, List.length_nil]; omega, fun k hk => ?_⟩
  match k, hk with
  | 0, _ => simp
  | 1, _ => simp

end Sys2Proof.Slice0

open Sys2Proof Sys2Proof.Machine Sys2Proof.Slice0

/-- Settles O37: a step either takes a fault whose report is true, which keeps all else, or has one of the effects, each of
which keeps memory canonical, sets Z and N from one value or not at all, and does not end Faulted. -/
theorem everyStepKeepsInv : Obligations.EveryStepKeepsInv := by
  intro s t hinv hstep
  obtain ⟨hrun, ⟨e, htrue, rfl⟩ | ⟨i, -, heff⟩⟩ := step_effect hstep
  · exact hinv.takeFault htrue
  · exact hinv.effect hrun heff

/-- Settles O40: of the effects only `Effect.emitted` writes the trace. -/
theorem onlyOutOpcodesAppendToTheTrace : Obligations.OnlyOutOpcodesAppendToTheTrace := by
  intro s t hstep
  obtain ⟨-, ⟨e, -, rfl⟩ | ⟨i, hfetch, heff⟩⟩ := step_effect hstep
  · exact .inl (by simp)
  · rw [opcodeAt_eq hfetch]
    exact heff.out_cases

/-- Settles O41, by the frame of each effect on Z and N, and on O. -/
theorem flagsAreWrittenOnlyByTheirInstructions : Obligations.FlagsAreWrittenOnlyByTheirInstructions := by
  intro s t hstep
  obtain ⟨-, ⟨e, -, rfl⟩ | ⟨i, hfetch, heff⟩⟩ := step_effect hstep
  · simp
  · rw [opcodeAt_eq hfetch]
    exact ⟨heff.zn_eq, heff.o_eq, heff.addr_o_cases⟩

/-- Settles O42, by the frame of each effect on the registers of each class. -/
theorem registersAreWrittenOnlyByTheirInstructions : Obligations.RegistersAreWrittenOnlyByTheirInstructions := by
  intro s t hstep
  obtain ⟨-, ⟨e, -, rfl⟩ | ⟨i, hfetch, heff⟩⟩ := step_effect hstep
  · simp
  · rw [opcodeAt_eq hfetch]
    exact ⟨fun hi => ⟨heff.address_reg_eq hi (q := .a1) rfl, heff.address_reg_eq hi (q := .a2) rfl⟩,
      fun hi => ⟨heff.reg_eq hi .r1, heff.reg_eq hi .r2⟩⟩

/-- Settles O43: a completed step leaves pc past the instruction, which lies inside memory, or is a jump to its operand. -/
theorem completedStepsAdvanceThePc : Obligations.CompletedStepsAdvanceThePc := by
  intro s t hstep hcompleted
  obtain ⟨-, ⟨e, -, rfl⟩ | ⟨i, hfetch, heff⟩⟩ := step_effect hstep
  · cases hcompleted
  rw [opcodeAt_eq hfetch]
  rcases heff.pc_cases with hpc | ⟨hjump, htarget⟩
  · rw [hpc, fetchInstr_advance hfetch]
    exact ⟨fun hi => by simp only [isWide_iff_of_not_jump _ hi], fun hi => .inl (by rw [if_pos (isWide_of_jump _ hi)])⟩
  · have hrange := jump_opcode_range _ hjump
    refine ⟨fun hi => by omega, fun _ => .inr ?_⟩
    rw [fetchInstr_operand hfetch htarget]
    exact toNat_joinBytes _ _

/-- Settles O45: the fetch and `decodeBytes` read the same bytes alike, and no read of the fetch leaves the four bytes. -/
theorem fetchSeesExactlyTheBytesAtThePc : Obligations.FetchSeesExactlyTheBytesAtThePc :=
  ⟨fun _ _ _ _ hmem hdec => fetchInstr_of_holdsBytes hmem hdec,
    fun _ _ _ _ _ hwrite hdec => fetchInstr_of_holdsBytes (holdsBytes_writeWord hwrite) hdec,
    fun m m' pc hbytes => by rw [fetchInstr, fetchInstr, fetch_congr hbytes]⟩

/-- Settles O6: the four selectors by evaluation, the classes over all four selectors. -/
theorem selectorsNameR2R1A2A1 : Obligations.SelectorsNameR2R1A2A1 :=
  ⟨fun _ => ⟨rfl, rfl, rfl, rfl⟩, fun _ _ => ⟨rfl, rfl, rfl, rfl⟩, by decide⟩

/-- Settles O28: the text of a run is a `flatMap` over the trace, and `emit` appends to the trace. -/
theorem runTextIsTheConcatenation : Obligations.RunTextIsTheConcatenation := by
  refine ⟨fun _ => rfl, fun s => List.flatMap_def, rfl, fun s x => ?_⟩
  simp [State.outputText]

/-- Settles O38: no byte is listed, Z and N are clear, and the status is Running. -/
theorem resetStateHasInv : Obligations.ResetStateHasInv :=
  ⟨Memory.wf_nil, rfl, recordTrue_of_not_faulted (by simp)⟩

/-- Settles O47, part by part of the reset state; the registers by their four names. -/
theorem resetValuesAreZero : Obligations.ResetValuesAreZero :=
  fun _ => ⟨fun r => by cases r <;> rfl, rfl, rfl, rfl, rfl, rfl, rfl, rfl⟩
end

section
/-! PROOF. The memory controller (20_memory.md): what each access answers inside and outside its bound, what a read finds
after a write, the canonical form as a function of what the memory reads as, and who writes memory. -/

namespace Sys2Proof.Machine

/-! ### The four access primitives inside and outside their bounds -/

section Bounds
variable {k : Access} {m : Memory} {a v : Word}

theorem readByte_of_outside (h : 32768 ≤ a.toNat) : readByte k m a = .error (.bounds a k .byte) := if_pos h

theorem readByte_of_inside (h : a.toNat < 32768) : readByte k m a = .ok (m.get a.toNat) := if_neg (Nat.not_le.mpr h)

theorem readWord_of_outside (h : 32767 ≤ a.toNat) : readWord k m a = .error (.bounds a k .word) := if_pos h

theorem readWord_of_inside (h : a.toNat < 32767) :
    readWord k m a = .ok (joinBytes (m.get a.toNat) (m.get (a.toNat + 1))) := if_neg (Nat.not_le.mpr h)

theorem writeByte_of_outside (h : 32768 ≤ a.toNat) : writeByte m a v = .error (.bounds a .dataWrite .byte) := if_pos h

theorem writeByte_of_inside (h : a.toNat < 32768) : writeByte m a v = .ok (m.set a.toNat (lowByte v)) :=
  if_neg (Nat.not_le.mpr h)

theorem writeWord_of_outside (h : 32767 ≤ a.toNat) : writeWord m a v = .error (.bounds a .dataWrite .word) := if_pos h

theorem writeWord_of_inside (h : a.toNat < 32767) :
    writeWord m a v = .ok ((m.set a.toNat (lowByte v)).set (a.toNat + 1) (highByte v)) := if_neg (Nat.not_le.mpr h)

end Bounds

/-! ### What a read finds after a write -/

/-- The byte written is the low half of the value given (20_memory.md R54). -/
theorem lowByte_eq_setWidth (v : Word) : lowByte v = v.setWidth 8 :=
  BitVec.eq_of_toNat_eq (by rw [toNat_lowByte, BitVec.toNat_setWidth])

section Pair
variable (m : Memory) (a : Nat) (lo hi : Byte)

/-- A pair of bytes written at `a` and `a + 1`: the second write does not disturb the first (20_memory.md R55). -/
theorem Memory.get_set_pair_low : ((m.set a lo).set (a + 1) hi).get a = lo := by simp

theorem Memory.get_set_pair_high : ((m.set a lo).set (a + 1) hi).get (a + 1) = hi := by simp

theorem Memory.get_set_pair_of_ne {b : Nat} (hlo : b ≠ a) (hhi : b ≠ a + 1) :
    ((m.set a lo).set (a + 1) hi).get b = m.get b := by
  rw [Memory.get_set, if_neg hhi.symm, Memory.get_set, if_neg hlo.symm]

end Pair

/-! ### The canonical form as a function of what the memory reads as -/

/-- An address that does not read as an unlisted one has a cell, in any list of cells. -/
theorem Memory.mem_of_get_ne_unlisted {m : Memory} {a : Nat} (h : m.get a ≠ Memory.unlisted) : (a, m.get a) ∈ m := by
  induction m with
  | nil => exact absurd rfl h
  | cons c m ih =>
    obtain ⟨b, v⟩ := c
    by_cases hb : b = a
    · simp [Memory.get, hb]
    · simp only [Memory.get, if_neg hb] at h ⊢
      exact List.mem_cons_of_mem _ (ih h)

/-- Where addresses strictly rise no cell is hidden behind an earlier one, so each is the one its address reads as. -/
theorem Memory.get_of_mem {m : Memory} {c : Host.Cell} (hm : m.Pairwise (fun c d => c.1 < d.1)) (hc : c ∈ m) :
    m.get c.1 = c.2 := by
  induction m with
  | nil => cases hc
  | cons d m ih =>
    obtain ⟨hd, htail⟩ := List.pairwise_cons.mp hm
    rcases List.mem_cons.mp hc with rfl | hc
    · exact if_pos rfl
    · exact (if_neg (hd c hc).ne).trans (ih htail hc)

/-- The cells of a canonical memory are exactly what it reads as, apart from the addresses that read as unlisted. -/
theorem Memory.mem_iff_get {m : Memory} (hm : m.wf) (c : Host.Cell) :
    c ∈ m ↔ m.get c.1 = c.2 ∧ c.2 ≠ Memory.unlisted := by
  obtain ⟨hsorted, hcells⟩ := hm
  constructor
  · exact fun hc => ⟨Memory.get_of_mem hsorted hc, (hcells c hc).2⟩
  · rintro ⟨hget, hlisted⟩
    have hc : (c.1, m.get c.1) ∈ m := Memory.mem_of_get_ne_unlisted (hget ▸ hlisted)
    rwa [hget] at hc

/-- Canonical memories that read alike have the same cells, and the strictly rising order leaves one list of them. -/
theorem Memory.eq_of_get_eq {m m' : Memory} (hm : m.wf) (hm' : m'.wf) (hget : ∀ a, m.get a = m'.get a) : m = m' := by
  have hcells (c : Host.Cell) : c ∈ m ↔ c ∈ m' := by rw [Memory.mem_iff_get hm, Memory.mem_iff_get hm', hget]
  have : Std.Irrefl (fun c d : Host.Cell => c.1 < d.1) := ⟨fun c => lt_irrefl c.1⟩
  have : Std.Antisymm (fun c d : Host.Cell => c.1 < d.1) := ⟨fun _ _ hcd hdc => (lt_asymm hcd hdc).elim⟩
  exact hm.1.eq_of_mem_iff hm'.1 hcells

/-! ### Who writes memory -/

/-- Of the effects only the store writes memory (20_memory.md R66). -/
theorem Effect.mem_eq {s t : State} {i : Instr} (h : Effect s i t) (hi : i.opcode ∉ [0x62#8, 0x63#8]) :
    t.mem = s.mem := by
  cases h with
  | stored hi' _ => exact absurd hi' hi
  | _ => simp

end Sys2Proof.Machine

open Sys2Proof Sys2Proof.Machine Sys2Proof.Slice0

/-- Settles O7: the write answers a memory whose reads `Memory.get_set` gives, and the low and high bytes of a word join
to the word. -/
theorem readAfterWriteRoundTrips : Obligations.ReadAfterWriteRoundTrips := by
  constructor
  · intro m a v k ha
    refine ⟨_, writeByte_of_inside ha, ?_, fun b hb => ?_⟩
    · rw [readByte_of_inside ha, Memory.get_set, if_pos rfl, lowByte_eq_setWidth]
    · rw [Memory.get_set, if_neg hb.symm]
  · intro m a v k ha
    refine ⟨_, writeWord_of_inside ha, ?_, fun b => Memory.get_set_pair_of_ne _ _ _ _⟩
    rw [readWord_of_inside ha, Memory.get_set_pair_low, Memory.get_set_pair_high, joinBytes_low_high]

/-- Settles O10: a canonical memory's cells are determined by what it reads as, and their order by the form. -/
theorem canonicalMemoriesReadingAlikeAreEqual : Obligations.CanonicalMemoriesReadingAlikeAreEqual :=
  fun _ _ => Memory.eq_of_get_eq

/-- Settles O39: a fault keeps memory, and of the effects only `Effect.stored` writes it. -/
theorem onlyStoresChangeMemory : Obligations.OnlyStoresChangeMemory := by
  intro s t hstep hstore hstorei a
  obtain ⟨-, ⟨e, -, rfl⟩ | ⟨i, hfetch, heff⟩⟩ := step_effect hstep
  · simp
  · rw [opcodeAt_eq hfetch] at hstore hstorei
    rw [heff.mem_eq (by simp [hstore, hstorei])]

/-- Settles O8, from the answer of each read on each side of its bound. -/
theorem readsAreBoundedAndLittleEndian : Obligations.ReadsAreBoundedAndLittleEndian :=
  fun _ _ _ => ⟨readByte_of_outside, readByte_of_inside, readWord_of_outside,
    fun ha => ⟨_, readWord_of_inside ha, toNat_joinBytes _ _⟩⟩

/-- Settles O9, from the answer of each write on each side of its bound and the values of the two bytes of a word. -/
theorem writesAreBoundedAndLittleEndian : Obligations.WritesAreBoundedAndLittleEndian := by
  refine fun m a v => ⟨writeByte_of_outside, fun ha => ⟨_, writeByte_of_inside ha, ?_⟩, writeWord_of_outside,
    fun ha => ⟨_, writeWord_of_inside ha, ?_, ?_⟩⟩
  · rw [Memory.get_set, if_pos rfl, toNat_lowByte]
  · rw [Memory.get_set_pair_low, toNat_lowByte]
  · rw [Memory.get_set_pair_high, toNat_highByte]
end

section
/-! PROOF. The encoding (30_encoding.md): the decoder as a relation between an instruction and its bytes, the encoder as one
formula over the fields, the opcode set, and the bytes of a table word placed where a step fetches. -/

namespace Sys2Proof

/-! ### The fields of an instruction in its bytes -/

/-- The selector a field of the selector byte holds (30_encoding.md R83). -/
def selectorIn (selb : Byte) : Machine.Field → BitVec 2
  | .reg1 => reg1Field selb
  | .reg2 => reg2Field selb

/-- The selector byte names the register of every field the instruction uses; of the other bits nothing is asked
(30_encoding.md R84, R90). -/
def Instr.SelectedBy (i : Instr) (selb : Byte) : Prop :=
  ∀ f r, i.regIn f = some r → r = Reg.ofSelector (selectorIn selb f)

/-- The operand bytes of an instruction, none for a narrow one (30_encoding.md R85, R87). -/
def Instr.operandBytes (i : Instr) : List Byte :=
  match i.operand with
  | some v => [lowByte v, highByte v]
  | none => []

theorem Instr.operandBytes_of_some {i : Instr} {v : Word} (h : i.operand = some v) :
    i.operandBytes = [lowByte v, highByte v] := by
  rw [operandBytes, h]

theorem Instr.operandBytes_of_none {i : Instr} (h : i.operand = none) : i.operandBytes = [] := by
  rw [operandBytes, h]

theorem Instr.length_operandBytes (i : Instr) : i.operandBytes.length = if isWide i.opcode then 2 else 0 := by
  cases h : i.operand with
  | none => simp [isWide_opcode_eq, operandBytes_of_none h, h]
  | some v => simp [isWide_opcode_eq, operandBytes_of_some h, h]

/-! ### The decoder as a relation -/

/-- The decoder answers exactly the instruction with that opcode whose used fields are those given. -/
theorem decodeFields_eq_some_iff {opc selb : Byte} {imm : Word} {i : Instr} :
    decodeFields opc selb imm = some i ↔
      opc = i.opcode ∧ i.SelectedBy selb ∧ ∀ v, i.operand = some v → v = imm := by
  constructor
  · refine fun h => ⟨(decodeFields_opcode h).symm, fun f r hr => ?_, fun v => decodeFields_operand h⟩
    have hfields := decodeFields_fields h
    cases f with
    | reg1 => cases i <;> simp_all [Instr.regIn, selectorIn]
    | reg2 => cases i <;> simp_all [Instr.regIn, selectorIn]
  · rintro ⟨rfl, hsel, himm⟩
    have h1 := hsel .reg1
    have h2 := hsel .reg2
    cases i <;> simp_all [decodeFields, Instr.opcode, Instr.regIn, Instr.operand, selectorIn]

/-- The list of bytes that decodes to an instruction and a rest: its opcode byte, a selector byte that names its registers,
its operand bytes, and the rest (30_encoding.md R80 to R88). -/
theorem decodeBytes_eq_ok_iff {bs rest : List Byte} {i : Instr} :
    decodeBytes bs = .ok (i, rest) ↔
      ∃ selb, i.SelectedBy selb ∧ bs = i.opcode :: selb :: (i.operandBytes ++ rest) := by
  constructor
  · intro h
    unfold decodeBytes at h
    split at h
    · split at h
      · split at h
        · split at h <;> cases h
          obtain ⟨rfl, hsel, himm⟩ := decodeFields_eq_some_iff.mp ‹_›
          have hsome : i.operand.isSome = true := isWide_opcode_eq i ▸ ‹isWide _ = true›
          obtain ⟨v, hv⟩ := Option.isSome_iff_exists.mp hsome
          exact ⟨_, hsel, by simp [Instr.operandBytes_of_some hv, himm v hv]⟩
        · cases h
      · split at h <;> cases h
        obtain ⟨rfl, hsel, -⟩ := decodeFields_eq_some_iff.mp ‹_›
        have hnone : i.operand = none :=
          Option.not_isSome_iff_eq_none.mp (isWide_opcode_eq i ▸ ‹¬isWide _ = true›)
        exact ⟨_, hsel, by rw [Instr.operandBytes_of_none hnone, List.nil_append]⟩
    · cases h
  · rintro ⟨selb, hsel, rfl⟩
    cases hv : i.operand with
    | none =>
      have hdec : decodeFields i.opcode selb 0#16 = some i := decodeFields_eq_some_iff.mpr ⟨rfl, hsel, by simp [hv]⟩
      simp [decodeBytes, Instr.operandBytes_of_none hv, isWide_opcode_eq, hv, hdec]
    | some v =>
      have hdec : decodeFields i.opcode selb v = some i := decodeFields_eq_some_iff.mpr ⟨rfl, hsel, by simp [hv]⟩
      simp [decodeBytes, Instr.operandBytes_of_some hv, isWide_opcode_eq, hv, hdec]

/-- The bytes an instruction was decoded from are an instruction by themselves. -/
theorem decodeBytes_split {bs rest : List Byte} {i : Instr} (h : decodeBytes bs = .ok (i, rest)) :
    ∃ own, bs = own ++ rest ∧ decodeBytes own = .ok (i, []) := by
  obtain ⟨selb, hsel, rfl⟩ := decodeBytes_eq_ok_iff.mp h
  exact ⟨i.opcode :: selb :: i.operandBytes, rfl, decodeBytes_eq_ok_iff.mpr ⟨selb, hsel, by rw [List.append_nil]⟩⟩

theorem decodeTableWord_eq_some_iff {nbits w : Nat} {i : Instr} :
    decodeTableWord nbits w = some i ↔ ∃ rest, decodeBytes (tableBytes nbits w) = .ok (i, rest) := by
  unfold decodeTableWord
  cases decodeBytes (tableBytes nbits w) with
  | ok p => simp [Prod.ext_iff]
  | error e => simp

/-! ### The encoder -/

/-- What the encoder writes into a selector field: 0 in one the instruction does not use (30_encoding.md R94). -/
def Instr.selectorOf (i : Instr) (f : Machine.Field) : BitVec 2 := (i.regIn f).elim 0 Reg.selector

theorem encode_eq (i : Instr) :
    encode i = i.opcode :: selectorByte (i.selectorOf .reg1) (i.selectorOf .reg2) :: i.operandBytes := by
  cases i <;> rfl

theorem reg1Field_selectorByte : ∀ s1 s2 : BitVec 2, reg1Field (selectorByte s1 s2) = s1 := by decide

theorem reg2Field_selectorByte : ∀ s1 s2 : BitVec 2, reg2Field (selectorByte s1 s2) = s2 := by decide

theorem Instr.selectedBy_selectorByte (i : Instr) :
    i.SelectedBy (selectorByte (i.selectorOf .reg1) (i.selectorOf .reg2)) := by
  intro f r hr
  have hsel : i.selectorOf f = r.selector := by rw [selectorOf, hr, Option.elim_some]
  cases f with
  | reg1 => rw [selectorIn, reg1Field_selectorByte, hsel, Machine.ofSelector_selector]
  | reg2 => rw [selectorIn, reg2Field_selectorByte, hsel, Machine.ofSelector_selector]

/-! ### The opcode set -/

theorem isValid_iff (opc : Byte) : isValid opc = true ↔ opc = 0x31#8 ∨ (0x60 ≤ opc.toNat ∧ opc.toNat ≤ 0x71) := by
  simp [isValid]

theorem isSome_decodeFields (opc selb : Byte) (imm : Word) : (decodeFields opc selb imm).isSome = isValid opc := by
  rcases decodeFields_cases opc selb imm with ⟨hinvalid, hnone⟩ | ⟨hvalid, i, hsome, -⟩
  · rw [hinvalid, hnone, Option.isSome_none]
  · rw [hvalid, hsome, Option.isSome_some]

end Sys2Proof

namespace Sys2Proof.Machine

/-- An opcode byte outside the valid set is fetched as a narrow one, so the fetch succeeds wherever the selector byte is
inside memory, and the validation raises DecodeFault (40_step_cycle.md R112, R114). -/
theorem fetchInstr_of_invalid {m : Memory} {pc : Word} (hpc : pc.toNat < 32767)
    (hinvalid : isValid (m.get pc.toNat) = false) : fetchInstr m pc = .error (.decode (m.get pc.toNat)) := by
  have hnarrow : isWide (m.get pc.toNat) = false :=
    Bool.eq_false_iff.mpr fun hwide => by simp [isValid_of_isWide _ hwide] at hinvalid
  have hnone : decodeFields (m.get pc.toNat) (m.get (pc.toNat + 1)) 0#16 = none := by
    rw [← Option.not_isSome_iff_eq_none, isSome_decodeFields, hinvalid, Bool.not_eq_true]
  rcases fetch_cases m pc with ⟨hout, -⟩ | ⟨hout, -⟩ | ⟨-, hwide, -⟩ | ⟨-, hwide, -⟩ | ⟨-, -, hfetch⟩
  · omega
  · omega
  · simp [hnarrow] at hwide
  · simp [hnarrow] at hwide
  · rw [fetchInstr, hfetch, bind_ok, hnone]

end Sys2Proof.Machine

namespace Sys2Proof.Slice0

open Sys2Proof.Machine

/-! ### Bytes placed in memory -/

theorem holdsBytes_place (m : Memory) {a : Nat} {bs : List Byte} (hin : a + bs.length ≤ 32768) :
    HoldsBytes (m.place a bs) a bs := by
  refine ⟨hin, fun k hk => ?_⟩
  rw [Memory.get_place, dif_pos ⟨by omega, by omega, by simp only [Config.memSize]; omega⟩]
  simp

theorem HoldsBytes.of_append {m : Memory} {a : Nat} {bs bs' : List Byte} (h : HoldsBytes m a (bs ++ bs')) :
    HoldsBytes m a bs := by
  obtain ⟨hin, hget⟩ := h
  rw [List.length_append] at hin
  refine ⟨by omega, fun k hk => ?_⟩
  rw [hget k (by rw [List.length_append]; omega), List.getElem_append_left hk]

end Sys2Proof.Slice0

open Sys2Proof Sys2Proof.Machine Sys2Proof.Slice0

/-- Settles O1: the encoder writes the opcode, a selector byte that names the registers, and the operand bytes, which is
what the decoder asks of the bytes of an instruction. -/
theorem decodeOfEncodeIsTheInstruction : Obligations.DecodeOfEncodeIsTheInstruction :=
  fun i rest => decodeBytes_eq_ok_iff.mpr ⟨_, i.selectedBy_selectorByte, by rw [encode_eq]; rfl⟩

/-- Settles O2: the decoder answers exactly for the valid set, and a byte outside it reaches the validation, because it is
not wide and so needs no operand inside memory. -/
theorem exactlyNineteenOpcodesDecode : Obligations.ExactlyNineteenOpcodesDecode := by
  constructor
  · intro opc selb imm
    rw [isSome_decodeFields, isValid_iff]
  · intro s hrun hpc hopc
    have hinvalid : isValid (opcodeAt s) = false := by rwa [← isValid_iff, Bool.not_eq_true] at hopc
    exact ⟨_, _, step_of_fetchInstr_error hrun (fetchInstr_of_invalid (by omega) hinvalid), rfl, rfl⟩

/-- Settles O4: the bytes read are those of `decodeBytes_eq_ok_iff`. -/
theorem decodedLengthFollowsTheWideSet : Obligations.DecodedLengthFollowsTheWideSet := by
  intro bs rest i h
  obtain ⟨selb, -, hbs⟩ := decodeBytes_eq_ok_iff.mp h
  exact ⟨selb, i.operandBytes, hbs, by simp only [i.length_operandBytes, isWide, List.contains_iff_mem]⟩

/-- Settles O44: the four bytes placed at pc begin with those of the instruction, and the fetch reads these alone. -/
theorem placedWordIsWhatTheNextStepRuns : Obligations.PlacedWordIsWhatTheNextStepRuns := by
  intro s nbits w i hpc hdec
  obtain ⟨rest, hbytes⟩ := decodeTableWord_eq_some_iff.mp hdec
  obtain ⟨own, hsplit, hown⟩ := decodeBytes_split hbytes
  have hplaced : HoldsBytes (s.withFetchWord nbits w).mem s.pc.toNat (tableBytes nbits w) :=
    holdsBytes_place s.mem (show s.pc.toNat + 4 ≤ 32768 by omega)
  rw [hsplit] at hplaced
  exact step_of_fetchInstr_ok rfl (fetchInstr_of_holdsBytes hplaced.of_append hown)
end

section
/-! PROOF. The phases of a step (40_step_cycle.md): the faults of the fetch, the class checks at the head of every body and
what is left once they pass, and what a step that ends Faulted has kept. -/

namespace Sys2Proof

/-- The class a body requires of the register in a field, for a field the list of checks names (40_step_cycle.md R116). -/
def Instr.requiredClass (i : Instr) : Machine.Field → Option RegClass
  | .reg1 => match i with
    | .add _ _ | .addr _ _ | .sub _ _ | .subr _ _ | .outr _ | .outrc _ => some .data
    | .outi _ | .outic _ => some .address
    | _ => none
  | .reg2 => match i with
    | .addr _ _ | .subr _ _ => some .data
    | .loadi _ _ | .storei _ _ => some .address
    | _ => none

theorem Reg.cls_of_isData {r : Reg} (h : r.isData = true) : r.cls = .data := eq_of_beq h

theorem Reg.cls_of_isAddr {r : Reg} (h : r.isAddr = true) : r.cls = .address := eq_of_beq h

theorem Reg.cls_ne_address {r : Reg} (h : r.isData = true) : r.cls ≠ .address := by simp [cls_of_isData h]

theorem Reg.cls_ne_data {r : Reg} (h : r.isAddr = true) : r.cls ≠ .data := by simp [cls_of_isAddr h]

end Sys2Proof

namespace Sys2Proof.Machine

/-! ### SetZN -/

theorem State.setZN_n_iff (s : State) (v : Word) : (s.setZN v).n = true ↔ v.toInt < 0 := by
  rw [setZN_n, BitVec.msb_eq_toInt, decide_eq_true_iff]

/-! ### The faults of the fetch -/

section FetchFaults
variable {m : Memory} {pc : Word}

theorem fetch_of_opcode_outside (hpc : 32768 ≤ pc.toNat) : fetch m pc = .error (.bounds pc .fetchOpcode .byte) := by
  rw [fetch, readByte_of_outside hpc, bind_error]

theorem fetch_of_selector_outside (hpc : pc.toNat = 32767) :
    fetch m pc = .error (.bounds 32768#16 .fetchSelector .byte) := by
  have hnext : pc + 1#16 = 32768#16 := by bv_omega
  rw [fetch, readByte_of_inside (by omega), bind_ok, hnext, readByte_of_outside (by decide), bind_error]

theorem fetch_of_operand_outside (hpc : pc.toNat = 32765 ∨ pc.toNat = 32766) (hwide : isWide (m.get pc.toNat) = true) :
    fetch m pc = .error (.bounds (pc + 2#16) .fetchOperand .word) := by
  have hselector : (pc + 1#16).toNat < 32768 := by bv_omega
  have hoperand : 32767 ≤ (pc + 2#16).toNat := by bv_omega
  rw [fetch, readByte_of_inside (by omega), bind_ok, readByte_of_inside hselector, bind_ok, if_pos hwide,
    readWord_of_outside hoperand, bind_error]

theorem fetchInstr_of_fetch_error {e : FaultInfo} (h : fetch m pc = .error e) : fetchInstr m pc = .error e := by
  rw [fetchInstr, h, bind_error]

end FetchFaults

/-! ### The class checks at the head of a body -/

/-- The class check of one field, nothing for a field without a requirement (40_step_cycle.md R116). -/
def checkClass (i : Instr) (f : Field) : Except FaultInfo Unit :=
  match i.regIn f, i.requiredClass f with
  | some r, some c => requireClass c i.opcode f r
  | _, _ => .ok ()

theorem requireClass_eq_ok_iff {c : RegClass} {opc : Byte} {f : Field} {r : Reg} :
    requireClass c opc f r = .ok () ↔ r.cls = c := by
  simp [requireClass]

theorem checkClass_of_wrong {i : Instr} {f : Field} {r : Reg} {c : RegClass} (hr : i.regIn f = some r)
    (hrequired : i.requiredClass f = some c) (hc : r.cls ≠ c) :
    checkClass i f = .error (.operandClass i.opcode f r.selector c) := by
  simp only [checkClass, hr, hrequired, requireClass_neg _ _ hc]

theorem checkClass_error_kind {i : Instr} {f : Field} {e : FaultInfo} (h : checkClass i f = .error e) :
    e.kind = .operandClass := by
  unfold checkClass requireClass at h
  split at h
  · split at h <;> cases h
    rfl
  · cases h

/-- The checks of both fields pass for exactly the well-formed instructions. -/
theorem wellFormed_iff_checkClass {i : Instr} :
    i.wellFormed = true ↔ checkClass i .reg1 = .ok () ∧ checkClass i .reg2 = .ok () := by
  cases i <;> simp [checkClass, Instr.regIn, Instr.requiredClass, requireClass_eq_ok_iff, Instr.wellFormed, Reg.isData,
    Reg.isAddr]

/-! ### What is left of a body after its class checks -/

/-- The part of a body after its class checks either completes, Halted or in the status it began in, or raises the
BoundsFault of its data access (60_exceptions.md R211). -/
def AccessEnds (s : State) : Except FaultInfo State → Prop
  | .ok t => t.status = .halted ∨ t.status = s.status
  | .error e => e.kind = .bounds

section AccessEnds
variable {s : State}

theorem accessEnds_ok {t : State} (h : t.status = .halted ∨ t.status = s.status) :
    AccessEnds s (.ok t) := h

theorem accessEnds_readWord {a : Word} {rest : Word → Except FaultInfo State} (h : ∀ v, AccessEnds s (rest v)) :
    AccessEnds s (readWord .dataRead s.mem a >>= rest) := by
  cases hread : readWord .dataRead s.mem a with
  | ok v => exact h v
  | error e =>
    obtain ⟨-, rfl⟩ := readWord_error hread
    exact rfl

theorem accessEnds_storeAndReadBack {s' : State} (a v : Word) (h : s'.status = s.status) :
    AccessEnds s (storeAndReadBack s' a v) := by
  rw [storeAndReadBack_eq]
  split
  · exact rfl
  · exact accessEnds_ok (.inr h)

end AccessEnds

/-- Every instruction's meaning is its class checks, reg1 before reg2, and then the part that accesses memory, writes and
emits, which raises no class fault and no DecodeFault. -/
theorem exec_eq_conclude_checkClass (i : Instr) (s : State) :
    ∃ rest, exec i s = s.conclude (checkClass i .reg1 >>= fun _ => checkClass i .reg2 >>= fun _ => rest) ∧
      AccessEnds s rest := by
  cases i with
  | halt => exact ⟨_, rfl, accessEnds_ok (.inl rfl)⟩
  | load reg1 imm => exact ⟨_, rfl, accessEnds_ok (by simp)⟩
  | loadi reg1 reg2 => exact ⟨_, rfl, accessEnds_readWord fun _ => accessEnds_ok (by simp)⟩
  | store reg1 imm => exact ⟨_, rfl, accessEnds_storeAndReadBack (s' := s.advanceWide) _ _ rfl⟩
  | storei reg1 reg2 => exact ⟨_, rfl, accessEnds_storeAndReadBack (s' := s.advanceNarrow) _ _ rfl⟩
  | jmp imm => exact ⟨_, rfl, accessEnds_ok (by simp)⟩
  | jmpz imm => exact ⟨_, rfl, accessEnds_ok (by simp)⟩
  | jmpn imm => exact ⟨_, rfl, accessEnds_ok (by simp)⟩
  | jmpo imm => exact ⟨_, rfl, accessEnds_ok (by simp)⟩
  | add reg1 imm => exact ⟨_, rfl, accessEnds_ok (by simp)⟩
  | addr reg1 reg2 => exact ⟨_, rfl, accessEnds_ok (by split <;> simp)⟩
  | sub reg1 imm => exact ⟨_, rfl, accessEnds_ok (by simp)⟩
  | subr reg1 reg2 => exact ⟨_, rfl, accessEnds_ok (by split <;> simp)⟩
  | out imm => exact ⟨_, rfl, accessEnds_ok (by simp)⟩
  | outc imm => exact ⟨_, rfl, accessEnds_ok (by simp)⟩
  | outr reg1 => exact ⟨_, rfl, accessEnds_ok (by simp)⟩
  | outrc reg1 => exact ⟨_, rfl, accessEnds_ok (by simp)⟩
  | outi reg1 => exact ⟨_, rfl, accessEnds_readWord fun _ => accessEnds_ok (by simp)⟩
  | outic reg1 => exact ⟨_, rfl, accessEnds_readWord fun _ => accessEnds_ok (by simp)⟩

theorem exec_of_checkClass_reg1_error {i : Instr} {e : FaultInfo} (s : State) (h1 : checkClass i .reg1 = .error e) :
    exec i s = .next (s.takeFault e) := by
  obtain ⟨rest, hexec, -⟩ := exec_eq_conclude_checkClass i s
  rw [hexec, h1, bind_error, State.conclude_error]

theorem exec_of_checkClass_reg2_error {i : Instr} {e : FaultInfo} (s : State) (h1 : checkClass i .reg1 = .ok ())
    (h2 : checkClass i .reg2 = .error e) : exec i s = .next (s.takeFault e) := by
  obtain ⟨rest, hexec, -⟩ := exec_eq_conclude_checkClass i s
  rw [hexec, h1, bind_ok, h2, bind_error, State.conclude_error]

/-- A well-formed instruction that ends Faulted has met a data access outside memory. -/
theorem exec_faulted_kind_of_wellFormed {i : Instr} {s t : State} {record : FaultRecord} (hrun : s.status = .running)
    (hwf : i.wellFormed = true) (hexec : exec i s = .next t) (ht : t.status = .faulted record) :
    record.info.kind = .bounds := by
  obtain ⟨rest, hrest, hends⟩ := exec_eq_conclude_checkClass i s
  obtain ⟨h1, h2⟩ := wellFormed_iff_checkClass.mp hwf
  rw [h1, bind_ok, h2, bind_ok, hexec] at hrest
  cases rest with
  | ok t' =>
    cases hrest
    rcases hends with h | h <;> simp [h, hrun] at ht
  | error e =>
    cases hrest
    cases ht
    exact hends

/-- An instruction that is not well formed always takes an OperandClassFault (60_exceptions.md R212). -/
theorem exec_of_not_wellFormed {i : Instr} (s : State) (hwf : i.wellFormed = false) :
    ∃ e : FaultInfo, e.kind = .operandClass ∧ exec i s = .next (s.takeFault e) := by
  cases h1 : checkClass i .reg1 with
  | error e => exact ⟨e, checkClass_error_kind h1, exec_of_checkClass_reg1_error s h1⟩
  | ok =>
    cases h2 : checkClass i .reg2 with
    | error e => exact ⟨e, checkClass_error_kind h2, exec_of_checkClass_reg2_error s h1 h2⟩
    | ok => simp [wellFormed_iff_checkClass.mpr ⟨h1, h2⟩] at hwf

/-! ### The first check that fails -/

theorem exec_of_reg1_wrong {i : Instr} {r : Reg} {c : RegClass} (s : State) (hr : i.regIn .reg1 = some r)
    (hrequired : i.requiredClass .reg1 = some c) (hc : r.cls ≠ c) :
    exec i s = .next (s.takeFault (.operandClass i.opcode .reg1 r.selector c)) :=
  exec_of_checkClass_reg1_error s (checkClass_of_wrong hr hrequired hc)

theorem exec_of_reg2_wrong {i : Instr} {q : Reg} {c : RegClass} (s : State) (h1 : checkClass i .reg1 = .ok ())
    (hq : i.regIn .reg2 = some q) (hrequired : i.requiredClass .reg2 = some c) (hc : q.cls ≠ c) :
    exec i s = .next (s.takeFault (.operandClass i.opcode .reg2 q.selector c)) :=
  exec_of_checkClass_reg2_error s h1 (checkClass_of_wrong hq hrequired hc)

end Sys2Proof.Machine

open Sys2Proof Sys2Proof.Machine Sys2Proof.Slice0

/-- Settles O29: each clause is the first check that fails, of reg1, or of reg2 where reg1 has no check or passes it. -/
theorem wrongOperandClassTakesItsFault : Obligations.WrongOperandClassTakesItsFault := by
  refine fun r q imm s => ⟨fun hq => ?_, fun hr => ?_, fun hr hq => ?_⟩
  · have hc := Reg.cls_ne_address hq
    exact ⟨exec_of_reg2_wrong s rfl rfl rfl hc, exec_of_reg2_wrong s rfl rfl rfl hc,
      exec_of_reg1_wrong s rfl rfl hc, exec_of_reg1_wrong s rfl rfl hc⟩
  · have hc := Reg.cls_ne_data hr
    exact ⟨exec_of_reg1_wrong s rfl rfl hc, exec_of_reg1_wrong s rfl rfl hc, exec_of_reg1_wrong s rfl rfl hc,
      exec_of_reg1_wrong s rfl rfl hc, exec_of_reg1_wrong s rfl rfl hc, exec_of_reg1_wrong s rfl rfl hc⟩
  · have hpass {opc : Byte} : requireClass .data opc .reg1 r = .ok () := requireClass_pos _ _ (Reg.cls_of_isData hr)
    have hc := Reg.cls_ne_data hq
    exact ⟨exec_of_reg2_wrong s hpass rfl rfl hc, exec_of_reg2_wrong s hpass rfl rfl hc⟩

/-- Settles O30: the class checks fail for exactly the ill-formed instructions, and after them a body raises BoundsFaults
only. -/
theorem classFaultsAreTheIllFormedInstructions : Obligations.ClassFaultsAreTheIllFormedInstructions := by
  intro i s hrun
  cases hwf : i.wellFormed with
  | false =>
    obtain ⟨e, hkind, hexec⟩ := exec_of_not_wellFormed s hwf
    refine ⟨iff_of_true ⟨_, _, hexec, s.takeFault_status e, hkind⟩ rfl, ?_⟩
    rintro ⟨t, record, hnext, hstatus, hdecode⟩
    cases hexec.symm.trans hnext
    cases hstatus
    simp [hkind] at hdecode
  | true =>
    have hbounds {t record} := exec_faulted_kind_of_wellFormed (t := t) (record := record) hrun hwf
    refine ⟨iff_of_false ?_ nofun, ?_⟩
    · rintro ⟨t, record, hnext, hstatus, hclass⟩
      simp [hbounds hnext hstatus] at hclass
    · rintro ⟨t, record, hnext, hstatus, hdecode⟩
      simp [hbounds hnext hstatus] at hdecode

/-- Settles O32: the faults of the fetch read by read, each after the reads before it succeed, then the validation. -/
theorem fetchAndDecodeFaultsInTheirOrder : Obligations.FetchAndDecodeFaultsInTheirOrder := by
  refine fun s hrun => ⟨fun hpc => ?_, fun hpc => ?_, fun hpc hwide => ?_, fun hpc hinvalid => ?_⟩
  · exact step_of_fetchInstr_error hrun (fetchInstr_of_fetch_error (fetch_of_opcode_outside hpc))
  · exact step_of_fetchInstr_error hrun (fetchInstr_of_fetch_error (fetch_of_selector_outside hpc))
  · have hw : isWide (s.mem.get s.pc.toNat) = true := List.contains_iff_mem.mpr hwide
    exact step_of_fetchInstr_error hrun (fetchInstr_of_fetch_error (fetch_of_operand_outside hpc hw))
  · have hnot : isValid (s.mem.get s.pc.toNat) = false := by rwa [← isValid_iff, Bool.not_eq_true] at hinvalid
    exact step_of_fetchInstr_error hrun (fetchInstr_of_invalid (by omega) hnot)

/-- Settles O33: a step is the entry of a fault, or an effect, none of which ends Faulted. -/
theorem faultingStepKeepsNothing : Obligations.FaultingStepKeepsNothing := by
  intro s t record hstep hstatus
  obtain ⟨hrun, ⟨e, -, rfl⟩ | ⟨i, -, heff⟩⟩ := step_effect hstep
  · cases hstatus
    exact ⟨rfl, rfl⟩
  · rcases heff.status_cases with h | h <;> simp [h, hrun] at hstatus

/-- Settles O11: the sign bit is the sign of the signed reading, and `setZN` is an update of Z and N alone. -/
theorem setZNWritesOnlyZeroAndNegative : Obligations.SetZNWritesOnlyZeroAndNegative :=
  fun s v => ⟨⟨beq_iff_eq, s.setZN_n_iff v⟩, rfl⟩

/-- Settles O34: the fetch reads the instruction whose bytes memory holds at pc. -/
theorem stepRunsTheDecodedInstruction : Obligations.StepRunsTheDecodedInstruction :=
  fun _ _ _ hrun hmem hdec => step_of_fetchInstr_ok hrun (fetchInstr_of_holdsBytes hmem hdec)
end

section
/-! PROOF. Loads and stores (41_load_store.md): the state each of the four ends in where it completes, and its frame. -/

namespace Sys2Proof.Machine

/-! ### The write of a store -/

/-- What is known of a word write that succeeds. -/
theorem writeWord_ok {m m' : Memory} {a v : Word} (h : writeWord m a v = .ok m') :
    a.toNat < 32767 ∧ m' = (m.set a.toNat (lowByte v)).set (a.toNat + 1) (highByte v) := by
  rcases writeWord_cases m a v with ⟨-, e⟩ | ⟨ha, e⟩ <;> rw [e] at h <;> cases h
  exact ⟨ha, rfl⟩

/-- Where the write succeeds, so does the read-back, of the word written (90_conflicts.md C10). -/
theorem storeAndReadBack_of_writeWord {s : State} {m : Memory} {a v : Word} (h : writeWord s.mem a v = .ok m) :
    storeAndReadBack s a v = .ok ((s.withMem m).setZN v) := by
  obtain ⟨ha, rfl⟩ := writeWord_ok h
  rw [storeAndReadBack_eq, if_neg (Nat.not_le.mpr ha)]

/-! ### The state in which each instruction ends, once its class check and its access succeed -/

theorem requireAddr_of_isAddr {opc : Byte} {f : Field} {q : Reg} (hq : q.isAddr = true) : requireAddr opc f q = .ok () :=
  requireClass_pos opc f (Reg.cls_of_isAddr hq)

section Completed
variable {s : State} {r q : Reg} {v : Word} {m : Memory}

theorem exec_load : exec (.load r v) s = .next (((s.jump (s.pc + 4#16)).setReg r v).setZN v) := rfl

theorem exec_loadi_of_readWord (hq : q.isAddr = true) (h : readWord .dataRead s.mem (s.reg q) = .ok v) :
    exec (.loadi r q) s = .next (((s.jump (s.pc + 2#16)).setReg r v).setZN v) := by
  rw [exec, execLoadi, requireAddr_of_isAddr hq, bind_ok, indirectAddress, h]
  rfl

theorem exec_store_of_writeWord (h : writeWord s.mem (absoluteAddress v) (s.reg r) = .ok m) :
    exec (.store r v) s = .next (((s.jump (s.pc + 4#16)).withMem m).setZN (s.reg r)) := by
  rw [exec, execStore, storeAndReadBack_of_writeWord (s := s.advanceWide) h]
  rfl

theorem exec_storei_of_writeWord (hq : q.isAddr = true)
    (h : writeWord s.mem (indirectAddress s q) (s.reg r) = .ok m) :
    exec (.storei r q) s = .next (((s.jump (s.pc + 2#16)).withMem m).setZN (s.reg r)) := by
  rw [exec, execStorei, requireAddr_of_isAddr hq, bind_ok, storeAndReadBack_of_writeWord (s := s.advanceNarrow) h]
  rfl

end Completed

end Sys2Proof.Machine

namespace Sys2Proof.Slice0

open Sys2Proof.Machine

/-! ### The flags and the word of an access -/

theorem flagsOf_setZN (s : State) (v : Word) : FlagsOf v (s.setZN v) := ⟨beq_iff_eq, s.setZN_n_iff v⟩

/-- The word written is at its address afterwards (20_memory.md R55). -/
theorem isWordAt_writeWord {m m' : Memory} {a v : Word} (h : writeWord m a v = .ok m') : IsWordAt m' a.toNat v := by
  obtain ⟨-, rfl⟩ := writeWord_ok h
  rw [IsWordAt, Memory.get_set_pair_low, Memory.get_set_pair_high, ← toNat_joinBytes, joinBytes_low_high]

/-- A word write leaves every byte outside its word alone (20_memory.md R65). -/
theorem writeWord_get_of_ne {m m' : Memory} {a v : Word} (h : writeWord m a v = .ok m') {b : Nat} (hlow : b ≠ a.toNat)
    (hhigh : b ≠ a.toNat + 1) : m'.get b = m.get b := by
  obtain ⟨-, rfl⟩ := writeWord_ok h
  exact Memory.get_set_pair_of_ne _ _ _ _ hlow hhigh

/-! ### What a completed load and a completed store change and leave unchanged -/

/-- From `s` to `t` register `r` was loaded with `v`, Z and N with its flags, pc with `pc`, and nothing else changed. -/
def Loads (r : Reg) (v pc : Word) (s t : State) : Prop :=
  t.reg r = v ∧ RegsKeptBut r s t ∧ FlagsOf v t ∧ t.o = s.o ∧ t.pc = pc ∧ MemKept s t ∧ StatusAndOutputKept s t

/-- From `s` to `t` the word `v` was stored at `a`, Z and N were written with its flags, pc with `pc`, and nothing else
changed. -/
def Stores (a v pc : Word) (s t : State) : Prop :=
  IsWordAt t.mem a.toNat v ∧ (∀ b, b ≠ a.toNat → b ≠ a.toNat + 1 → t.mem.get b = s.mem.get b) ∧
    RegsKept s t ∧ FlagsOf v t ∧ t.o = s.o ∧ t.pc = pc ∧ StatusAndOutputKept s t

theorem loads_setReg_setZN (s : State) (r : Reg) (v pc : Word) :
    Loads r v pc s (((s.jump pc).setReg r v).setZN v) :=
  ⟨by simp, fun _ hq => by simp [hq], flagsOf_setZN _ v, by simp, by simp, fun _ => by simp, by simp, by simp⟩

theorem stores_withMem_setZN {s : State} {m : Memory} {a v : Word} (pc : Word) (h : writeWord s.mem a v = .ok m) :
    Stores a v pc s (((s.jump pc).withMem m).setZN v) :=
  ⟨isWordAt_writeWord h, fun _ => writeWord_get_of_ne h, fun _ => by simp, flagsOf_setZN _ v, rfl, rfl, rfl, rfl⟩

end Sys2Proof.Slice0

open Sys2Proof Sys2Proof.Machine Sys2Proof.Slice0

/-- Settles O14: the class check and the read succeed, and the word was read from the state before the load. -/
theorem loadiWritesTheWordAtItsAddress : Obligations.LoadiWritesTheWordAtItsAddress := by
  intro r q s hq ha
  have hread := readWord_of_inside (k := .dataRead) (m := s.mem) ha
  exact ⟨_, _, exec_loadi_of_readWord hq hread, toNat_joinBytes _ _, loads_setReg_setZN s r _ _⟩

/-- Settles O15: inside the bound the write succeeds, and the store is that write and the flags. -/
theorem storeWritesOnlyTheWordAtItsOperand : Obligations.StoreWritesOnlyTheWordAtItsOperand := by
  intro r imm s ha
  have hwrite := writeWord_of_inside (m := s.mem) (v := s.reg r) ha
  exact ⟨_, exec_store_of_writeWord hwrite, stores_withMem_setZN _ hwrite⟩

/-- Settles O16: as STORE, after the class check of the address register. -/
theorem storeiWritesOnlyTheWordAtItsAddress : Obligations.StoreiWritesOnlyTheWordAtItsAddress := by
  intro r q s hq ha
  have hwrite := writeWord_of_inside (m := s.mem) (v := s.reg r) ha
  exact ⟨_, exec_storei_of_writeWord hq hwrite, stores_withMem_setZN _ hwrite⟩

/-- Settles O13: LOAD has neither a class check nor an access, so it always completes. -/
theorem loadWritesItsOperand : Obligations.LoadWritesItsOperand :=
  fun r v s => ⟨_, exec_load, loads_setReg_setZN s r v _⟩
end

section
/-! PROOF. The four jumps (42_jumps.md): each concludes with `jumpIf` on the flag it tests, which has no fault. -/

namespace Sys2Proof.Machine

/-- A jump completes, taken or not, and writes pc only (42_jumps.md R150). -/
theorem conclude_jumpIf (taken : Bool) (imm : Word) (s : State) :
    s.conclude (.ok (jumpIf taken imm s)) = .next { s with pc := if taken then imm else s.pc + 4#16 } := by
  rw [State.conclude_ok, jumpIf_eq]

end Sys2Proof.Machine

open Sys2Proof Sys2Proof.Machine

/-- Settles O17: JMP is the jump that is always taken, and the other three are taken by the flag each tests. -/
theorem jumpsWriteOnlyThePc : Obligations.JumpsWriteOnlyThePc := by
  intro imm s
  refine ⟨?jmp, ?jmpz, ?jmpn, ?jmpo⟩
  case jmp => exact conclude_jumpIf true imm s
  case jmpz => exact conclude_jumpIf s.z imm s
  case jmpn => exact conclude_jumpIf s.n imm s
  case jmpo => exact conclude_jumpIf s.o imm s
end

section
/-! PROOF. Arithmetic (43_arithmetic.md): the two overflow rules as facts about true sums and differences, the state each of
the four instructions ends in where its class checks pass, and what that state has changed and kept. -/

namespace Sys2Proof.Machine

/-! ### The overflow rules are the signed overflow of the library -/

theorem ovfAdd_eq_saddOverflow (a b : Word) : ovfAdd a b (a + b) = a.saddOverflow b :=
  (BitVec.saddOverflow_eq a b).symm

/-- Operands of different sign are one of two cases in the library's form of the rule, by the sign of the minuend. -/
theorem ovfSub_eq_ssubOverflow (a b : Word) : ovfSub a b (a - b) = a.ssubOverflow b := by
  rw [BitVec.ssubOverflow_eq, ovfSub]
  cases a.msb <;> cases b.msb <;> simp

/-! ### The state in which each instruction ends, once its class checks pass -/

theorem requireData_of_isData {opc : Byte} {f : Field} {q : Reg} (hq : q.isData = true) :
    requireData opc f q = .ok () :=
  requireClass_pos opc f (Reg.cls_of_isData hq)

section Completed
variable {s : State} {r q : Reg} {v : Word}

theorem exec_add_of_isData (hr : r.isData = true) : exec (.add r v) s =
    .next (writeResult (s.jump (s.pc + 4#16)) r (s.reg r + v) (ovfAdd (s.reg r) v (s.reg r + v))) := by
  rw [exec, execAdd, requireData_of_isData hr]
  rfl

theorem exec_sub_of_isData (hr : r.isData = true) : exec (.sub r v) s =
    .next (writeResult (s.jump (s.pc + 4#16)) r (s.reg r - v) (ovfSub (s.reg r) v (s.reg r - v))) := by
  rw [exec, execSub, requireData_of_isData hr]
  rfl

/-- Both forms of ADDR: the explicit no-op of one register named twice, and the sum, where the switch chooses between the
overflow of the sum and the flag as it was. -/
theorem exec_addr_of_isData (hr : r.isData = true) (hq : q.isData = true) : exec (.addr r q) s =
    .next (if r = q then s.jump (s.pc + 2#16)
      else writeResult (s.jump (s.pc + 2#16)) r (s.reg r + s.reg q)
        (if Config.addrWritesO then ovfAdd (s.reg r) (s.reg q) (s.reg r + s.reg q) else s.o)) := by
  rw [exec, execAddr, requireData_of_isData hr, requireData_of_isData hq]
  rfl

/-- Both forms of SUBR: the explicit no-op of one register named twice, and the difference. -/
theorem exec_subr_of_isData (hr : r.isData = true) (hq : q.isData = true) : exec (.subr r q) s =
    .next (if r = q then s.jump (s.pc + 2#16)
      else writeResult (s.jump (s.pc + 2#16)) r (s.reg r - s.reg q)
        (ovfSub (s.reg r) (s.reg q) (s.reg r - s.reg q))) := by
  rw [exec, execSubr, requireData_of_isData hr, requireData_of_isData hq]
  rfl

end Completed

end Sys2Proof.Machine

namespace Sys2Proof.Slice0

open Sys2Proof.Machine

/-! ### Overflow as a fact about integers -/

/-- The range of R7 is the one of the library's overflow tests. -/
theorem outOfRange_iff (x : Int) : OutOfRange x ↔ x ≥ 2 ^ (16 - 1) ∨ x < -2 ^ (16 - 1) := by
  unfold OutOfRange
  omega

theorem ovfAdd_iff (a b : Word) : ovfAdd a b (a + b) = true ↔ OutOfRange (a.toInt + b.toInt) := by
  rw [ovfAdd_eq_saddOverflow, BitVec.saddOverflow, Bool.or_eq_true, decide_eq_true_iff, decide_eq_true_iff,
    outOfRange_iff]

theorem ovfSub_iff (a b : Word) : ovfSub a b (a - b) = true ↔ OutOfRange (a.toInt - b.toInt) := by
  rw [ovfSub_eq_ssubOverflow, BitVec.ssubOverflow, Bool.or_eq_true, decide_eq_true_iff, decide_eq_true_iff,
    outOfRange_iff]

/-! ### What a completed computation changes and leaves unchanged -/

/-- From `s` to `t` register `r` was given the integer `x` brought back into 16 bits, O the truth of `overflow`, Z and N the
flags of the result, pc the value `pc`, and nothing else changed (43_arithmetic.md R160, R163). -/
def Computes (r : Reg) (x : Int) (overflow : Prop) (pc : Word) (s t : State) : Prop :=
  (t.reg r).toInt = x.bmod 65536 ∧ RegsKeptBut r s t ∧ FlagsOf (t.reg r) t ∧ (t.o = true ↔ overflow) ∧ t.pc = pc ∧
    MemKept s t ∧ StatusAndOutputKept s t

theorem computes_writeResult {s : State} {r : Reg} {v pc : Word} {b : Bool} {x : Int} {overflow : Prop}
    (hv : v.toInt = x.bmod 65536) (hb : b = true ↔ overflow) :
    Computes r x overflow pc s (writeResult (s.jump pc) r v b) := by
  have hr : (writeResult (s.jump pc) r v b).reg r = v := by simp
  rw [Computes, hr]
  exact ⟨hv, fun _ hq => by simp [hq], flagsOf_setZN _ v, by simpa using hb, by simp, fun _ => by simp, by simp, by simp⟩

end Sys2Proof.Slice0

open Sys2Proof Sys2Proof.Machine Sys2Proof.Slice0

/-- Settles O12: each rule is the library's signed overflow of its operation. -/
theorem overflowRulesAreSignedOverflow : Obligations.OverflowRulesAreSignedOverflow :=
  ⟨ovfAdd_iff, ovfSub_iff⟩

/-- Settles O18: the class check passes, and the sum is written with its overflow. -/
theorem addWrapsAndAssignsOverflow : Obligations.AddWrapsAndAssignsOverflow :=
  fun r imm s hr => ⟨_, exec_add_of_isData hr, computes_writeResult (BitVec.toInt_add _ _) (ovfAdd_iff (s.reg r) imm)⟩

/-- Settles O19: as ADD, with the difference. -/
theorem subWrapsAndAssignsOverflow : Obligations.SubWrapsAndAssignsOverflow :=
  fun r imm s hr => ⟨_, exec_sub_of_isData hr, computes_writeResult BitVec.toInt_sub (ovfSub_iff (s.reg r) imm)⟩

/-- Settles O20: as ADD where the switch is on; where it is off, O is given its own value. -/
theorem addrWrapsWithOverflowLeftToTheSwitch : Obligations.AddrWrapsWithOverflowLeftToTheSwitch := by
  intro r q s hr hq hne
  refine ⟨_, (exec_addr_of_isData hr hq).trans (by rw [if_neg hne]), computes_writeResult (BitVec.toInt_add _ _) ?_⟩
  cases Config.addrWritesO with
  | true => exact ovfAdd_iff (s.reg r) (s.reg q)
  | false => exact Iff.rfl

/-- Settles O21: as SUB, with the second register as the subtrahend. -/
theorem subrWrapsAndAssignsOverflow : Obligations.SubrWrapsAndAssignsOverflow := by
  intro r q s hr hq hne
  exact ⟨_, (exec_subr_of_isData hr hq).trans (by rw [if_neg hne]),
    computes_writeResult BitVec.toInt_sub (ovfSub_iff (s.reg r) (s.reg q))⟩

/-- Settles O22: of one register named twice both instructions only advance pc. -/
theorem addrAndSubrOfOneRegisterDoNothing : Obligations.AddrAndSubrOfOneRegisterDoNothing := by
  intro r s hr
  constructor
  · rw [exec_addr_of_isData hr hr, if_pos rfl, State.jump]
  · rw [exec_subr_of_isData hr hr, if_pos rfl, State.jump]
end

section
/-! PROOF. Output (44_output.md): the transaction each of the six instructions emits where it completes, and the text of a
number. -/

namespace Sys2Proof.Machine

/-! ### The state in which each instruction ends, once its class check and its access succeed -/

section Completed
variable {s : State} {r : Reg} {v : Word}

theorem exec_out : exec (.out v) s = .next (s.advanceWide.emit (.num v)) := rfl

theorem exec_outc : exec (.outc v) s = .next (s.advanceWide.emit (.char (lowByte v))) := rfl

theorem exec_outr_of_isData (hr : r.isData = true) :
    exec (.outr r) s = .next (s.advanceNarrow.emit (.num (s.reg r))) := by
  rw [exec, execOutr, requireData_of_isData hr]
  rfl

theorem exec_outrc_of_isData (hr : r.isData = true) :
    exec (.outrc r) s = .next (s.advanceNarrow.emit (.char (lowByte (s.reg r)))) := by
  rw [exec, execOutrc, requireData_of_isData hr]
  rfl

theorem exec_outi_of_readWord (hr : r.isAddr = true) (h : readWord .dataRead s.mem (s.reg r) = .ok v) :
    exec (.outi r) s = .next (s.advanceNarrow.emit (.num v)) := by
  rw [exec, execOuti, requireAddr_of_isAddr hr, bind_ok, indirectAddress, h]
  rfl

theorem exec_outic_of_readWord (hr : r.isAddr = true) (h : readWord .dataRead s.mem (s.reg r) = .ok v) :
    exec (.outic r) s = .next (s.advanceNarrow.emit (.char (lowByte v))) := by
  rw [exec, execOutic, requireAddr_of_isAddr hr, bind_ok, indirectAddress, h]
  rfl

end Completed

/-! ### The decimal numeral of a number -/

/-- The digits `ds`, the most significant first, are the shortest decimal numeral of `k` (44_output.md R181). -/
structure IsDecimal (ds : List Nat) (k : Nat) : Prop where
  ne_nil : ds ≠ []
  le_nine : ∀ d ∈ ds, d ≤ 9
  no_leading_zero : ds.head? = some 0 → ds = [0]
  value : ds.foldl (fun x d => 10 * x + d) 0 = k

theorem IsDecimal.singleton {k : Nat} (hk : k < 10) : IsDecimal [k] k where
  ne_nil := List.cons_ne_nil k []
  le_nine := by simpa using Nat.le_of_lt_succ hk
  no_leading_zero := by simp
  value := by simp

/-- A last digit appended to the numeral of a tenth that is not zero, so that the first digit stays not zero. -/
theorem IsDecimal.append_mod {ds : List Nat} {k : Nat} (h : IsDecimal ds (k / 10)) (hk : 10 ≤ k) :
    IsDecimal (ds ++ [k % 10]) k where
  ne_nil := by simp
  le_nine := by
    have hlast : k % 10 ≤ 9 := by omega
    simpa [or_imp, forall_and] using ⟨h.le_nine, hlast⟩
  no_leading_zero := by
    intro hzero
    rw [List.head?_append_of_ne_nil _ h.ne_nil] at hzero
    have htenth : 0 = k / 10 := by simpa [h.no_leading_zero hzero] using h.value
    omega
  value := by
    rw [List.foldl_append, h.value]
    exact Nat.div_add_mod k 10

/-- A number below `10 ^ fuel` has at most `fuel` digits, so the fuel does not cut its numeral short. -/
theorem decimalDigits_isDecimal {fuel k : Nat} (hfuel : fuel ≠ 0) (hk : k < 10 ^ fuel) :
    ∃ ds, decimalDigits fuel k = ds.map digitByte ∧ IsDecimal ds k ∧ ds.length ≤ fuel := by
  induction fuel generalizing k with
  | zero => exact absurd rfl hfuel
  | succ fuel ih =>
    rw [decimalDigits]
    split
    next hsmall => exact ⟨[k], rfl, .singleton hsmall, by simp⟩
    next hlarge =>
      have hne : fuel ≠ 0 := by
        rintro rfl
        omega
      obtain ⟨ds, htext, hds, hlen⟩ := ih hne (k := k / 10) (by omega)
      refine ⟨ds ++ [k % 10], ?_, hds.append_mod (by omega), by simpa using hlen⟩
      rw [htext, List.map_append, List.map_singleton]

theorem text_num (v : Word) :
    (Output.num v).text = (if v.toInt < 0 then [0x2D#8] else []) ++ decimalDigits 5 v.toInt.natAbs := by
  rw [Output.text, decimalText]
  split <;> rfl

theorem natAbs_toInt_lt (v : Word) : v.toInt.natAbs < 10 ^ 5 := by
  have hlow : -32768 ≤ v.toInt := v.le_toInt
  have hhigh : v.toInt < 32768 := v.toInt_lt
  omega

end Sys2Proof.Machine

open Sys2Proof Sys2Proof.Machine Sys2Proof.Slice0

/-- Settles O25: the class check and the read succeed, and the low byte of the word read is the byte at the address. -/
theorem outiAndOuticEmitTheWordAtTheirAddress : Obligations.OutiAndOuticEmitTheWordAtTheirAddress := by
  intro r s hr ha
  have hread := readWord_of_inside (k := .dataRead) (m := s.mem) ha
  refine ⟨⟨_, toNat_joinBytes _ _, exec_outi_of_readWord hr hread⟩, ?_⟩
  rw [exec_outic_of_readWord hr hread, lowByte_joinBytes]
  rfl

/-- Settles O27: a magnitude fits the five digits its text is given. -/
theorem decimalTextDenotesTheSignedReading : Obligations.DecimalTextDenotesTheSignedReading := by
  intro v
  obtain ⟨ds, htext, hds, hlen⟩ := decimalDigits_isDecimal (by decide) (natAbs_toInt_lt v)
  refine ⟨ds, ?_, List.length_pos_iff.mpr hds.ne_nil, hlen, hds.le_nine, hds.no_leading_zero, hds.value⟩
  rw [text_num, htext]
  rfl

/-- Settles O23: neither has a class check or an access, so both always complete. -/
theorem outAndOutcEmitTheirOperand : Obligations.OutAndOutcEmitTheirOperand := by
  refine fun imm s => ⟨exec_out, ?_⟩
  rw [exec_outc, lowByte_eq_setWidth]
  rfl

/-- Settles O24: as OUT and OUTC, after the class check of the data register. -/
theorem outrAndOutrcEmitADataRegister : Obligations.OutrAndOutrcEmitADataRegister := by
  refine fun r s hr => ⟨exec_outr_of_isData hr, ?_⟩
  rw [exec_outrc_of_isData hr, lowByte_eq_setWidth]
  rfl
end

section
/-! PROOF. How a process ends (60_exceptions.md R214, R227): by a LoadFault, or as the status of the core says. -/

namespace Sys2Proof.Machine

section ProcessEnd
variable {t : State}

theorem State.processEnd_of_running (h : t.status = .running) : t.processEnd = none := by
  rw [processEnd_eq, h]

theorem State.processEnd_of_halted (h : t.status = .halted) :
    t.processEnd = some { exit := .zero, message := none, stream := t.outputText } := by
  rw [processEnd_eq, h]

theorem State.processEnd_of_faulted {record : FaultRecord} (h : t.status = .faulted record) :
    t.processEnd = some { exit := .nonZero, message := some { kind := record.info.kind, record := some record },
                          stream := t.outputText } := by
  rw [processEnd_eq, h]

/-- Exit zero is the exit of Halted alone. -/
theorem State.processEnd_zero_iff : (∃ e, t.processEnd = some e ∧ e.exit = .zero) ↔ t.status = .halted := by
  cases h : t.status with
  | running => simp [processEnd_of_running h]
  | halted => simp [processEnd_of_halted h]
  | faulted record => simp [processEnd_of_faulted h]

end ProcessEnd

section Startup
variable {s : State} {program : List Byte}

theorem startup_of_too_long (h : 32768 < program.length) : startup s program = .error .load := if_pos h

theorem length_le_of_startup_ok {t : State} (h : startup s program = .ok t) : program.length ≤ 32768 := by
  rcases startup_cases s program with ⟨-, e⟩ | ⟨hfits, -⟩
  · rw [e] at h
    cases h
  · exact hfits

/-- Exit zero is never that of a LoadFault, so it is that of a core that was released and has Halted. -/
theorem processRun_zero_iff (fuel : Nat) :
    (∃ e, processRun fuel s program = some e ∧ e.exit = .zero) ↔ ∃ t, startup s program = .ok t ∧ Succeeds fuel t := by
  cases h : startup s program with
  | error kind => simp [processRun_of_startup_error fuel h, loadFaultEnd]
  | ok t => simpa [processRun_of_startup_ok fuel h, Succeeds] using State.processEnd_zero_iff

end Startup

end Sys2Proof.Machine

open Sys2Proof Sys2Proof.Machine

/-- Settles O50: by the answer of the load, and where the core was released by its status in the end. -/
theorem processEndsByHaltFaultOrLoadFault : Obligations.ProcessEndsByHaltFaultOrLoadFault := by
  refine fun fuel s program => ⟨fun hlong => ?tooLong, fun t ht => ?released, ?exitZero⟩
  case tooLong => exact processRun_of_startup_error fuel (startup_of_too_long hlong)
  case released =>
    rw [processRun_of_startup_ok fuel ht]
    exact ⟨State.processEnd_of_running, State.processEnd_of_halted, fun _ => State.processEnd_of_faulted⟩
  case exitZero =>
    rw [processRun_zero_iff]
    exact ⟨fun ⟨t, ht, hsucceeds⟩ => ⟨length_le_of_startup_ok ht, t, ht, hsucceeds⟩, And.right⟩
end

section
/-! PROOF. Halting (45_halt.md): the state HALT ends in, and that a stopped core stays as it is for any number of steps. -/

namespace Sys2Proof.Machine

/-! ### The step of a stopped core -/

theorem step_of_halted {s : State} (hs : s.status = .halted) : step s = .fault .halted := by
  simp only [step, hs]

theorem step_of_faulted {s : State} {record : FaultRecord} (hs : s.status = .faulted record) :
    step s = .fault (.faulted record) := by
  simp only [step, hs]

/-! ### A run where there is no step -/

/-- A run stays where the step answers no next state (40_step_cycle.md R110). -/
theorem runFor_of_no_step {s : State} (h : ∀ t, step s ≠ .next t) (fuel : Nat) : runFor fuel s = s := by
  cases fuel with
  | zero => rfl
  | succ fuel =>
    rw [runFor]
    cases hstep : step s with
    | next t => exact absurd hstep (h t)
    | fault _ => rfl
    | refused _ => rfl

end Sys2Proof.Machine

open Sys2Proof Sys2Proof.Machine

/-- Settles O36: neither stopped status answers a next state, and a run ends where there is none. -/
theorem stoppedCoreNeverMoves : Obligations.StoppedCoreNeverMoves :=
  fun _ => ⟨step_of_halted, fun _ => step_of_faulted, fun hs => runFor_of_no_step (step_ne_next_of_not_running hs)⟩

/-- Settles O26: HALT has no check that could fail, so it completes with the advance of pc and the status Halted. -/
theorem haltSetsStatusAndKeepsTheRest : Obligations.HaltSetsStatusAndKeepsTheRest := exec_halt
end

section
/-! PROOF. Faults and the loader (60_exceptions.md): the BoundsFault of each data access (R211), the state a program starts
in (R214), and the numbers of the fault kinds with the exits they lead to (R215, R227). -/

namespace Sys2Proof.Machine

/-! ### A body whose data access lies outside memory -/

section AccessOutside
variable {s s' : State} {q : Reg} {a v : Word} {opc : Byte} {f : Field}

/-- A store outside the bound raises at its write, before the read-back (20_memory.md R55). -/
theorem storeAndReadBack_of_outside (ha : 32767 ≤ a.toNat) :
    storeAndReadBack s a v = .error (.bounds a .dataWrite .word) := by
  rw [storeAndReadBack_eq, if_pos ha]

/-- The shape of LOADI, OUTI and OUTIC: the class check, the read, and a rest that is not reached. -/
theorem conclude_indirect_read_of_outside {rest : Word → Except FaultInfo State} (hq : q.isAddr = true)
    (ha : 32767 ≤ (s.reg q).toNat) :
    s.conclude (requireAddr opc f q >>= fun _ => readWord .dataRead s.mem (indirectAddress s q) >>= rest) =
      .next (s.takeFault (.bounds (s.reg q) .dataRead .word)) := by
  rw [requireAddr_of_isAddr hq, bind_ok, indirectAddress, readWord_of_outside ha, bind_error, State.conclude_error]

/-- The shape of STOREI: the class check, then the store. -/
theorem conclude_indirect_store_of_outside (hq : q.isAddr = true) (ha : 32767 ≤ (s.reg q).toNat) :
    s.conclude (requireAddr opc f q >>= fun _ => storeAndReadBack s' (indirectAddress s q) v) =
      .next (s.takeFault (.bounds (s.reg q) .dataWrite .word)) := by
  rw [requireAddr_of_isAddr hq, bind_ok, indirectAddress, storeAndReadBack_of_outside ha, State.conclude_error]

theorem exec_store_of_outside {r : Reg} (ha : 32767 ≤ v.toNat) :
    exec (.store r v) s = .next (s.takeFault (.bounds v .dataWrite .word)) := by
  rw [exec, execStore, absoluteAddress, storeAndReadBack_of_outside ha, State.conclude_error]

end AccessOutside

/-! ### The state a program starts in -/

theorem startup_of_fits {program : List Byte} (s : State) (h : program.length ≤ 32768) :
    startup s program = .ok { State.reset with mem := Memory.place [] 0 program } := if_neg (Nat.not_lt.mpr h)

/-- The reset state satisfies the invariant with any canonical memory, since its status is Running. -/
theorem inv_reset_with_mem {m : Memory} (h : m.wf) : Inv { State.reset with mem := m } := ⟨h, rfl, rfl⟩

/-- Behind the bytes placed from address 0 memory reads as before. -/
theorem Memory.get_place_zero_of_length_le (m : Memory) {bs : List Byte} {k : Nat} (h : bs.length ≤ k) :
    (m.place 0 bs).get k = m.get k := by
  rw [Memory.get_place, dif_neg (by omega)]

/-! ### Numbers of fault kinds, and exits -/

/-- A fault of the core is never a LoadFault, whose number is 1 (60_exceptions.md R214). -/
theorem FaultInfo.code_kind_range (e : FaultInfo) : 2 ≤ e.kind.code ∧ e.kind.code ≤ 4 := by
  cases e <;> simp [FaultInfo.kind, FaultKind.code]

section Exit
variable {s : State}

theorem State.processExit_of_running (h : s.status = .running) : s.processExit = none := by
  rw [processExit, h]

theorem State.processExit_of_halted (h : s.status = .halted) : s.processExit = some .zero := by
  rw [processExit, h]

theorem State.processExit_of_faulted {record : FaultRecord} (h : s.status = .faulted record) :
    s.processExit = some .nonZero := by
  rw [processExit, h]

end Exit

end Sys2Proof.Machine

open Sys2Proof Sys2Proof.Machine Sys2Proof.Slice0

/-- Settles O31: STORE has no class check; in the four others the check of an address register passes, and the access
raises. -/
theorem dataAccessOutOfBoundsTakesItsFault : Obligations.DataAccessOutOfBoundsTakesItsFault :=
  fun _ _ _ _ => ⟨exec_store_of_outside, fun hq ha =>
    ⟨conclude_indirect_read_of_outside hq ha, conclude_indirect_store_of_outside hq ha,
      conclude_indirect_read_of_outside hq ha, conclude_indirect_read_of_outside hq ha⟩⟩

/-- Settles O48: the program is placed in a memory that lists nothing, which keeps the canonical form, reads as the program
where it lies and as unlisted behind it. -/
theorem startupLoadsTheProgramAtZero : Obligations.StartupLoadsTheProgramAtZero := by
  refine fun s program => ⟨fun hfits => ?fits, startup_of_too_long⟩
  case fits =>
    obtain ⟨-, hplaced⟩ := holdsBytes_place [] (a := 0) (bs := program) (by omega)
    refine ⟨_, startup_of_fits s hfits, rfl, inv_reset_with_mem (Memory.wf_place 0 program Memory.wf_nil), ?_, ?_⟩
    · intro k hk
      rw [← hplaced k hk, Nat.zero_add]
    · exact fun k hk => Memory.get_place_zero_of_length_le [] hk

/-- Settles O49: the exit and the code by status, the code of a fault being that of its kind. -/
theorem statusesHaveTheirCodesAndExits : Obligations.StatusesHaveTheirCodesAndExits := by
  refine fun s => ⟨fun h => ?running, fun h => ?halted, fun record h => ?faulted, rfl, rfl, rfl, rfl⟩
  case running => exact ⟨State.processExit_of_running h, by rw [h, Status.code]⟩
  case halted => exact ⟨State.processExit_of_halted h, by rw [h, Status.code]⟩
  case faulted =>
    rw [h]
    exact ⟨State.processExit_of_faulted h, rfl, record.info.code_kind_range⟩
end

section
/-! PROOF. Which bits of the selector byte an instruction looks at (30_encoding.md R84, R90), the words of
95_test_vectors.md section 3.2, and the two resets (70_reset_and_hazards.md R241). -/

namespace Sys2Proof

/-! ### The bits of the selector byte that are looked at -/

theorem selectorIn_and (selb mask : Byte) (f : Machine.Field) :
    selectorIn (selb &&& mask) f = selectorIn selb f &&& selectorIn mask f := by
  cases f <;> exact BitVec.extractLsb'_and

/-- Bytes that agree under a mask agree in a field that the mask covers. -/
theorem selectorIn_eq_of_and_eq {selb selb' mask : Byte} {f : Machine.Field}
    (hmask : selectorIn mask f = BitVec.allOnes 2) (h : selb &&& mask = selb' &&& mask) :
    selectorIn selb f = selectorIn selb' f := by
  have hfield := congrArg (selectorIn · f) h
  simpa only [selectorIn_and, hmask, BitVec.and_allOnes] using hfield

/-- Of the selector byte an instruction asks only the fields it uses. -/
theorem Instr.selectedBy_congr {i : Instr} {selb selb' : Byte}
    (h : ∀ f, i.regIn f ≠ none → selectorIn selb f = selectorIn selb' f) : i.SelectedBy selb ↔ i.SelectedBy selb' :=
  forall₃_congr fun f r hr => by rw [h f (by simp [hr])]

/-- The decoder looks at no bit outside a mask that covers the fields used by the instructions of this opcode. -/
theorem decodeFields_eq_of_and_eq {opc selb selb' mask : Byte} (imm : Word)
    (hmask : ∀ (i : Instr) f, i.opcode = opc → i.regIn f ≠ none → selectorIn mask f = BitVec.allOnes 2)
    (h : selb &&& mask = selb' &&& mask) : decodeFields opc selb imm = decodeFields opc selb' imm := by
  ext i
  rw [decodeFields_eq_some_iff, decodeFields_eq_some_iff]
  refine and_congr_right fun hopc => and_congr_left' (Instr.selectedBy_congr fun f hf => ?_)
  exact selectorIn_eq_of_and_eq (hmask i f hopc.symm hf) h

theorem selectorIn_both_fields (f : Machine.Field) : selectorIn 0xC3#8 f = BitVec.allOnes 2 := by
  cases f <;> rfl

/-! ### The rows without a register, and those without a second one -/

theorem Instr.regIn_eq_none {i : Instr} (h : i.opcode ∈ [0x31#8, 0x64#8, 0x65#8, 0x66#8, 0x67#8, 0x6C#8, 0x6D#8])
    (f : Machine.Field) : i.regIn f = none := by
  cases f with
  | reg1 => cases i <;> simp_all [regIn, opcode]
  | reg2 => cases i <;> simp_all [regIn, opcode]

theorem Instr.regIn_reg2_eq_none {i : Instr}
    (h : i.opcode ∈ [0x60#8, 0x62#8, 0x68#8, 0x6A#8, 0x6E#8, 0x6F#8, 0x70#8, 0x71#8]) : i.regIn .reg2 = none := by
  cases i <;> simp_all [regIn, opcode]

/-! ### Bytes that are no instruction -/

section Invalid
variable {opc : Byte} (h : isValid opc = false)
include h

theorem isWide_of_invalid : isWide opc = false :=
  Bool.eq_false_iff.mpr fun hwide => by simp [isValid_of_isWide _ hwide] at h

theorem decodeFields_of_invalid (selb : Byte) (imm : Word) : decodeFields opc selb imm = none := by
  rw [← Option.not_isSome_iff_eq_none, isSome_decodeFields, h, Bool.not_eq_true]

/-- The length is taken from the opcode byte before it is validated, and an invalid one takes two bytes
(30_encoding.md R87, R89). -/
theorem decodeBytes_of_invalid (selb : Byte) (rest : List Byte) :
    decodeBytes (opc :: selb :: rest) = .error (.invalidOpcode opc) := by
  simp [decodeBytes, isWide_of_invalid h, decodeFields_of_invalid h]

end Invalid

end Sys2Proof

open Sys2Proof Sys2Proof.Machine

/-- Settles O3: one argument for three masks, those of both fields, of no field and of the reg1 field. -/
theorem reservedBitsAndUnusedSelectorsAreIgnored : Obligations.ReservedBitsAndUnusedSelectorsAreIgnored := by
  refine ⟨fun opc selb selb' imm h => ?both, fun opc selb selb' imm hopc => ?neither,
    fun opc selb selb' imm hopc h => ?reg1⟩
  case both => exact decodeFields_eq_of_and_eq imm (fun _ f _ _ => selectorIn_both_fields f) h
  case neither =>
    refine decodeFields_eq_of_and_eq (mask := 0#8) imm (fun i f hi hf => ?_) (by simp only [BitVec.and_zero])
    exact absurd (Instr.regIn_eq_none (hi ▸ hopc) f) hf
  case reg1 =>
    refine decodeFields_eq_of_and_eq imm (fun i f hi hf => ?_) h
    cases f with
    | reg1 => rfl
    | reg2 => exact absurd (Instr.regIn_reg2_eq_none (hi ▸ hopc)) hf

/-- Settles O5: the decoder evaluated on one word of each row, and the four neighbours by the valid set. -/
theorem wordsOfTheSpecDecodeAsItSays : Obligations.WordsOfTheSpecDecodeAsItSays :=
  ⟨rfl, rfl, rfl, rfl, rfl, rfl, rfl, rfl, rfl, rfl, rfl, rfl, rfl, rfl, rfl, rfl, rfl, rfl, rfl,
    decodeBytes_of_invalid rfl _ _, decodeBytes_of_invalid rfl _ _, decodeBytes_of_invalid rfl _ _,
    decodeBytes_of_invalid rfl _ _⟩

/-- Settles O46: memory reset lists no byte, and each reset writes its own part of the state only. -/
theorem memoryAndProcessorResetAreSeparate : Obligations.MemoryAndProcessorResetAreSeparate :=
  fun _ => ⟨Memory.get_nil, rfl, rfl⟩
end
